-- ==== Sys2Proof/Word.lean ====
section
/-!
DEFINITION. The machine's word types (00_scope.md R6, R7, R9): every value is an unsigned integer of a stated width.
-/

namespace Sys2Proof

/-- A register, a timer, a memory cell, an immediate `kk`: 8 bits, unsigned (R6 `XLEN`, R9). -/
abbrev Byte := BitVec 8

/-- The instruction word: 16 bits, bit 15 the most significant (R7, R70). -/
abbrev Word := BitVec 16

/-- An address: the 12 significant bits (R6 `ADDR_BITS`). The arithmetic of this type wraps modulo 4096,
which is the mask `AND 0xFFF` the spec puts on every address (20_memory.md R51). The 16-bit containers
of `I`, `pc` and `STACK` keep bits 15:12 zero (R23, R24), so these 12 bits are all they hold
(R36: "A model may state them as types"). -/
abbrev Addr := BitVec 12

/-- The 16 key lines, bit `k` for key `k` (10_state.md R30, R39). -/
abbrev KeyVector := BitVec 16

/-- The number of a general register, 0 to 15 (R21). -/
abbrev RegIdx := Fin 16

/-- `VF` is `V[15]` (R10, R22). -/
abbrev vF : RegIdx := 15

/-- The number of a key, 0 to 15 (R30: "hexadecimal key value (0–F)"). -/
abbrev KeyIdx := Fin 16

end Sys2Proof
end

