-- ==== Sys2Proof/Syntax.lean ====
section
/-!
DEFINITION. The instructions: one constructor for each row of spec/opcode_table.json (30_encoding.md R82, R83).
A constructor holds the operand fields the row gives the instruction and nothing else: ignored bits (R80)
are no operands. Register fields, immediates and addresses have the types of their fields, so every term
of this type is an instruction of the machine.
-/

namespace Sys2Proof

inductive Instr where
  /-- `CLS` (R150). -/
  | cls
  /-- `RET` (R100). -/
  | ret
  /-- `JP addr` (R101). -/
  | jp (nnn : Addr)
  /-- `CALL addr` (R102). -/
  | call (nnn : Addr)
  /-- `SE Vx, byte` (R103). -/
  | seByte (x : RegIdx) (kk : Byte)
  /-- `SNE Vx, byte` (R104). -/
  | sneByte (x : RegIdx) (kk : Byte)
  /-- `SE Vx, Vy` (R105). -/
  | seReg (x y : RegIdx)
  /-- `LD Vx, byte` (R120). -/
  | ldByte (x : RegIdx) (kk : Byte)
  /-- `ADD Vx, byte` (R121). -/
  | addByte (x : RegIdx) (kk : Byte)
  /-- `LD Vx, Vy` (R122). -/
  | ldReg (x y : RegIdx)
  /-- `OR Vx, Vy` (R123). -/
  | orReg (x y : RegIdx)
  /-- `AND Vx, Vy` (R124). -/
  | andReg (x y : RegIdx)
  /-- `XOR Vx, Vy` (R125). -/
  | xorReg (x y : RegIdx)
  /-- `ADD Vx, Vy` (R126). -/
  | addReg (x y : RegIdx)
  /-- `SUB Vx, Vy` (R127). -/
  | subReg (x y : RegIdx)
  /-- `SHR Vx` (R128); the `y` field is ignored. -/
  | shr (x : RegIdx)
  /-- `SUBN Vx, Vy` (R129). -/
  | subnReg (x y : RegIdx)
  /-- `SHL Vx` (R130); the `y` field is ignored. -/
  | shl (x : RegIdx)
  /-- `SNE Vx, Vy` (R106). -/
  | sneReg (x y : RegIdx)
  /-- `LD I, addr` (R140). -/
  | ldI (nnn : Addr)
  /-- `JP V0, addr` (R107). -/
  | jpV0 (nnn : Addr)
  /-- `RND Vx, byte` (R166). -/
  | rnd (x : RegIdx) (kk : Byte)
  /-- `DRW Vx, Vy, n` (R151); `n` is the sprite's height, 0 to 15. -/
  | drw (x y : RegIdx) (n : Fin 16)
  /-- `SKP Vx` (R160). -/
  | skp (x : RegIdx)
  /-- `SKNP Vx` (R161). -/
  | sknp (x : RegIdx)
  /-- `LD Vx, DT` (R163). -/
  | ldVxDt (x : RegIdx)
  /-- `LD Vx, K` (R162). -/
  | ldVxK (x : RegIdx)
  /-- `LD DT, Vx` (R164). -/
  | ldDtVx (x : RegIdx)
  /-- `LD ST, Vx` (R165). -/
  | ldStVx (x : RegIdx)
  /-- `ADD I, Vx` (R141). -/
  | addI (x : RegIdx)
  /-- `LD F, Vx` (R142). -/
  | ldF (x : RegIdx)
  /-- `LD B, Vx` (R143). -/
  | ldB (x : RegIdx)
  /-- `LD [I], Vx` (R144). -/
  | storeRegs (x : RegIdx)
  /-- `LD Vx, [I]` (R145). -/
  | loadRegs (x : RegIdx)
  /-- A word of nibble 0 that is neither `CLS` nor `RET`: the no-op (R79, R95). -/
  | nop0
  /-- A word of nibble 8 whose slot is empty: the no-op (R79, R95). -/
  | nop8
  /-- A word of nibble E that is neither `SKP` nor `SKNP`: the no-op (R79, R95). -/
  | nopE
  /-- A word of nibble F whose low byte is unmatched: the no-op (R79, R95). -/
  | nopF
deriving DecidableEq, Repr

/-- The four rows of the table that are the one `NOP` of 40_cycle_and_dispatch.md R95. -/
def Instr.isNop : Instr → Bool
  | .nop0 | .nop8 | .nopE | .nopF => true
  | _ => false

end Sys2Proof
end

