-- ==== Sys2Proof/Decode.lean ====
section
/-!
DEFINITION. Decoding (total on words, by the two-level dispatch of 30_encoding.md R74 to R79), the encoder
(the canonical words of R82, by the formats of R72), and the opcode map of R82 and R83 as data.
-/

namespace Sys2Proof

/-! ## Fields of the instruction word (00_scope.md R8, 30_encoding.md R71) -/

/-- `t = op[15:12]`. -/
def topNibble (w : Word) : BitVec 4 := w.extractLsb' 12 4

/-- `x = op[11:8]`. -/
def fieldX (w : Word) : RegIdx := (w.extractLsb' 8 4).toFin

/-- `y = op[7:4]`. -/
def fieldY (w : Word) : RegIdx := (w.extractLsb' 4 4).toFin

/-- `n = op[3:0]`, as the function code of the nibbles 0, 8 and E. -/
def lowNibble (w : Word) : BitVec 4 := w.extractLsb' 0 4

/-- `n = op[3:0]`, as the height of a sprite (R73). -/
def fieldN (w : Word) : Fin 16 := (w.extractLsb' 0 4).toFin

/-- `kk = op[7:0]`. -/
def fieldKk (w : Word) : Byte := w.extractLsb' 0 8

/-- `nnn = op[11:0]`. -/
def fieldNnn (w : Word) : Addr := w.extractLsb' 0 12

/-! ## The decoder -/

/-- Sub-table 0, keyed by the low nibble (R75). -/
def decodeNibble0 (w : Word) : Instr :=
  match lowNibble w with
  | 0x0#4 => .cls
  | 0xE#4 => .ret
  | _ => .nop0

/-- Sub-table 8, keyed by the low nibble (R76). -/
def decodeNibble8 (w : Word) : Instr :=
  match lowNibble w with
  | 0x0#4 => .ldReg (fieldX w) (fieldY w)
  | 0x1#4 => .orReg (fieldX w) (fieldY w)
  | 0x2#4 => .andReg (fieldX w) (fieldY w)
  | 0x3#4 => .xorReg (fieldX w) (fieldY w)
  | 0x4#4 => .addReg (fieldX w) (fieldY w)
  | 0x5#4 => .subReg (fieldX w) (fieldY w)
  | 0x6#4 => .shr (fieldX w)
  | 0x7#4 => .subnReg (fieldX w) (fieldY w)
  | 0xE#4 => .shl (fieldX w)
  | _ => .nop8

/-- Sub-table E, keyed by the low nibble (R77). -/
def decodeNibbleE (w : Word) : Instr :=
  match lowNibble w with
  | 0xE#4 => .skp (fieldX w)
  | 0x1#4 => .sknp (fieldX w)
  | _ => .nopE

/-- Sub-table F, keyed by the low byte (R78). -/
def decodeNibbleF (w : Word) : Instr :=
  match fieldKk w with
  | 0x07#8 => .ldVxDt (fieldX w)
  | 0x0A#8 => .ldVxK (fieldX w)
  | 0x15#8 => .ldDtVx (fieldX w)
  | 0x18#8 => .ldStVx (fieldX w)
  | 0x1E#8 => .addI (fieldX w)
  | 0x29#8 => .ldF (fieldX w)
  | 0x33#8 => .ldB (fieldX w)
  | 0x55#8 => .storeRegs (fieldX w)
  | 0x65#8 => .loadRegs (fieldX w)
  | _ => .nopF

/-- The decoder (R74 to R79): the top nibble selects a handler or a sub-table. It is total: "every one of
the 65536 code points selects exactly one" handler. -/
def decode (w : Word) : Instr :=
  match topNibble w with
  | 0x0#4 => decodeNibble0 w
  | 0x1#4 => .jp (fieldNnn w)
  | 0x2#4 => .call (fieldNnn w)
  | 0x3#4 => .seByte (fieldX w) (fieldKk w)
  | 0x4#4 => .sneByte (fieldX w) (fieldKk w)
  | 0x5#4 => .seReg (fieldX w) (fieldY w)
  | 0x6#4 => .ldByte (fieldX w) (fieldKk w)
  | 0x7#4 => .addByte (fieldX w) (fieldKk w)
  | 0x8#4 => decodeNibble8 w
  | 0x9#4 => .sneReg (fieldX w) (fieldY w)
  | 0xA#4 => .ldI (fieldNnn w)
  | 0xB#4 => .jpV0 (fieldNnn w)
  | 0xC#4 => .rnd (fieldX w) (fieldKk w)
  | 0xD#4 => .drw (fieldX w) (fieldY w) (fieldN w)
  | 0xE#4 => decodeNibbleE w
  -- 0xF, the one nibble left
  | _ => decodeNibbleF w

/-! ## Bytes (20_memory.md R52, 30_encoding.md R70) -/

/-- The instruction word of two bytes, the byte at the lower address in bits 15:8 (R52). -/
def wordOfBytes (high low : Byte) : Word := high ++ low

/-- Bits 15:8 of a word, the byte stored at the lower address (R52). -/
def highByte (w : Word) : Byte := w.extractLsb' 8 8

/-- Bits 7:0 of a word, the byte stored at the higher address (R52). -/
def lowByte (w : Word) : Byte := w.extractLsb' 0 8

/-- Why a list of bytes is no instruction: only because it is too short (R70: "Every instruction is
exactly 16 bits"). -/
inductive DecodeError where
  | truncated
deriving DecidableEq, Repr

/-- The instruction at the head of a list of bytes, with the rest of the list. -/
def decodeBytes : List Byte → Except DecodeError (Instr × List Byte)
  | high :: low :: rest => .ok (decode (wordOfBytes high low), rest)
  | _ => .error .truncated

/-- The instruction the decoder reads from the word `w` of `nbits` bits, numbered as
spec/opcode_table.json numbers them; bits at and above `nbits` count as 0. -/
def decodeTableWord (nbits w : Nat) : Option Instr :=
  if nbits ≤ 16 then
    let word : Word := BitVec.ofNat 16 (w % 2 ^ nbits)
    match decodeBytes [highByte word, lowByte word] with
    | .ok (i, _) => some i
    | .error _ => none
  else none

/-! ## The encoder -/

/-- Format NNN (R72). -/
def formatNnn (t : BitVec 4) (nnn : Addr) : Word := t ++ nnn

/-- Formats XKK and XF8 (R72): top nibble, register, low byte. -/
def formatXkk (t : BitVec 4) (x : RegIdx) (kk : Byte) : Word :=
  t ++ (BitVec.ofFin x : BitVec 4) ++ kk

/-- Formats XY, XYF and XYN (R72): top nibble, two registers, low nibble. -/
def formatXyn (t : BitVec 4) (x y n : Fin 16) : Word :=
  t ++ (BitVec.ofFin x : BitVec 4) ++ (BitVec.ofFin y : BitVec 4) ++ (BitVec.ofFin n : BitVec 4)

/-- The canonical word of an instruction (R80, R82, R83). -/
def encode : Instr → Word
  | .cls => 0x00E0
  | .ret => 0x00EE
  | .jp nnn => formatNnn 0x1 nnn
  | .call nnn => formatNnn 0x2 nnn
  | .seByte x kk => formatXkk 0x3 x kk
  | .sneByte x kk => formatXkk 0x4 x kk
  | .seReg x y => formatXyn 0x5 x y 0x0
  | .ldByte x kk => formatXkk 0x6 x kk
  | .addByte x kk => formatXkk 0x7 x kk
  | .ldReg x y => formatXyn 0x8 x y 0x0
  | .orReg x y => formatXyn 0x8 x y 0x1
  | .andReg x y => formatXyn 0x8 x y 0x2
  | .xorReg x y => formatXyn 0x8 x y 0x3
  | .addReg x y => formatXyn 0x8 x y 0x4
  | .subReg x y => formatXyn 0x8 x y 0x5
  | .shr x => formatXyn 0x8 x 0x0 0x6
  | .subnReg x y => formatXyn 0x8 x y 0x7
  | .shl x => formatXyn 0x8 x 0x0 0xE
  | .sneReg x y => formatXyn 0x9 x y 0x0
  | .ldI nnn => formatNnn 0xA nnn
  | .jpV0 nnn => formatNnn 0xB nnn
  | .rnd x kk => formatXkk 0xC x kk
  | .drw x y n => formatXyn 0xD x y n
  | .skp x => formatXkk 0xE x 0x9E
  | .sknp x => formatXkk 0xE x 0xA1
  | .ldVxDt x => formatXkk 0xF x 0x07
  | .ldVxK x => formatXkk 0xF x 0x0A
  | .ldDtVx x => formatXkk 0xF x 0x15
  | .ldStVx x => formatXkk 0xF x 0x18
  | .addI x => formatXkk 0xF x 0x1E
  | .ldF x => formatXkk 0xF x 0x29
  | .ldB x => formatXkk 0xF x 0x33
  | .storeRegs x => formatXkk 0xF x 0x55
  | .loadRegs x => formatXkk 0xF x 0x65
  | .nop0 => 0x0001
  | .nop8 => 0x8008
  | .nopE => 0xE000
  | .nopF => 0xF000

/-- The bytes of an instruction in the order memory holds them (R52, R70). -/
def encodeBytes (i : Instr) : List Byte := [highByte (encode i), lowByte (encode i)]

/-! ## The opcode map as data (R82, R83) -/

/-- A row of the opcode map: a word selects it when `word AND mask == pattern`, and the lowest priority wins. -/
structure OpcodeRow where
  mnemonic : String
  mask : Word
  pattern : Word
  priority : Nat
deriving DecidableEq, Repr

/-- The rows of the twelve direct nibbles (R74, R82). -/
def directRows : List OpcodeRow :=
  [⟨"JP_addr", 0xF000, 0x1000, 0⟩, ⟨"CALL_addr", 0xF000, 0x2000, 0⟩,
   ⟨"SE_Vx__byte", 0xF000, 0x3000, 0⟩, ⟨"SNE_Vx__byte", 0xF000, 0x4000, 0⟩,
   ⟨"SE_Vx__Vy", 0xF000, 0x5000, 0⟩, ⟨"LD_Vx__byte", 0xF000, 0x6000, 0⟩,
   ⟨"ADD_Vx__byte", 0xF000, 0x7000, 0⟩, ⟨"SNE_Vx__Vy", 0xF000, 0x9000, 0⟩,
   ⟨"LD_I__addr", 0xF000, 0xA000, 0⟩, ⟨"JP_V0__addr", 0xF000, 0xB000, 0⟩,
   ⟨"RND_Vx__byte", 0xF000, 0xC000, 0⟩, ⟨"DRW_Vx__Vy__n", 0xF000, 0xD000, 0⟩]

/-- The rows keyed by the low nibble: sub-tables 0, 8 and E (R75, R76, R77, R82). -/
def nibbleRows : List OpcodeRow :=
  [⟨"CLS", 0xF00F, 0x0000, 0⟩, ⟨"RET", 0xF00F, 0x000E, 0⟩,
   ⟨"LD_Vx__Vy", 0xF00F, 0x8000, 0⟩, ⟨"OR_Vx__Vy", 0xF00F, 0x8001, 0⟩,
   ⟨"AND_Vx__Vy", 0xF00F, 0x8002, 0⟩, ⟨"XOR_Vx__Vy", 0xF00F, 0x8003, 0⟩,
   ⟨"ADD_Vx__Vy", 0xF00F, 0x8004, 0⟩, ⟨"SUB_Vx__Vy", 0xF00F, 0x8005, 0⟩,
   ⟨"SHR_Vx", 0xF00F, 0x8006, 0⟩, ⟨"SUBN_Vx__Vy", 0xF00F, 0x8007, 0⟩,
   ⟨"SHL_Vx", 0xF00F, 0x800E, 0⟩, ⟨"SKP_Vx", 0xF00F, 0xE00E, 0⟩,
   ⟨"SKNP_Vx", 0xF00F, 0xE001, 0⟩]

/-- The rows keyed by the low byte: sub-table F (R78, R82). -/
def byteRows : List OpcodeRow :=
  [⟨"LD_Vx__DT", 0xF0FF, 0xF007, 0⟩, ⟨"LD_Vx__K", 0xF0FF, 0xF00A, 0⟩,
   ⟨"LD_DT__Vx", 0xF0FF, 0xF015, 0⟩, ⟨"LD_ST__Vx", 0xF0FF, 0xF018, 0⟩,
   ⟨"ADD_I__Vx", 0xF0FF, 0xF01E, 0⟩, ⟨"LD_F__Vx", 0xF0FF, 0xF029, 0⟩,
   ⟨"LD_B__Vx", 0xF0FF, 0xF033, 0⟩, ⟨"LD__I___Vx", 0xF0FF, 0xF055, 0⟩,
   ⟨"LD_Vx___I", 0xF0FF, 0xF065, 0⟩]

/-- The four fallback rows, all of them the no-op (R82, R83). -/
def fallbackRows : List OpcodeRow :=
  [⟨"NOP_0", 0xF000, 0x0000, 1⟩, ⟨"NOP_8", 0xF000, 0x8000, 1⟩,
   ⟨"NOP_E", 0xF000, 0xE000, 1⟩, ⟨"NOP_F", 0xF000, 0xF000, 1⟩]

/-- The 34 rows of priority 0. -/
def specificRows : List OpcodeRow := directRows ++ nibbleRows ++ byteRows

/-- The 38 rows of the opcode map. -/
def opcodeRows : List OpcodeRow := specificRows ++ fallbackRows

/-- A word selects a row when `word AND mask == pattern` (R82). -/
abbrev OpcodeRow.selects (r : OpcodeRow) (w : Word) : Prop := w &&& r.mask = r.pattern

/-- The mnemonic of an instruction's row, as spec/opcode_table.json spells it. -/
def Instr.mnemonic : Instr → String
  | .cls => "CLS"
  | .ret => "RET"
  | .jp _ => "JP_addr"
  | .call _ => "CALL_addr"
  | .seByte _ _ => "SE_Vx__byte"
  | .sneByte _ _ => "SNE_Vx__byte"
  | .seReg _ _ => "SE_Vx__Vy"
  | .ldByte _ _ => "LD_Vx__byte"
  | .addByte _ _ => "ADD_Vx__byte"
  | .ldReg _ _ => "LD_Vx__Vy"
  | .orReg _ _ => "OR_Vx__Vy"
  | .andReg _ _ => "AND_Vx__Vy"
  | .xorReg _ _ => "XOR_Vx__Vy"
  | .addReg _ _ => "ADD_Vx__Vy"
  | .subReg _ _ => "SUB_Vx__Vy"
  | .shr _ => "SHR_Vx"
  | .subnReg _ _ => "SUBN_Vx__Vy"
  | .shl _ => "SHL_Vx"
  | .sneReg _ _ => "SNE_Vx__Vy"
  | .ldI _ => "LD_I__addr"
  | .jpV0 _ => "JP_V0__addr"
  | .rnd _ _ => "RND_Vx__byte"
  | .drw _ _ _ => "DRW_Vx__Vy__n"
  | .skp _ => "SKP_Vx"
  | .sknp _ => "SKNP_Vx"
  | .ldVxDt _ => "LD_Vx__DT"
  | .ldVxK _ => "LD_Vx__K"
  | .ldDtVx _ => "LD_DT__Vx"
  | .ldStVx _ => "LD_ST__Vx"
  | .addI _ => "ADD_I__Vx"
  | .ldF _ => "LD_F__Vx"
  | .ldB _ => "LD_B__Vx"
  | .storeRegs _ => "LD__I___Vx"
  | .loadRegs _ => "LD_Vx___I"
  | .nop0 => "NOP_0"
  | .nop8 => "NOP_8"
  | .nopE => "NOP_E"
  | .nopF => "NOP_F"

end Sys2Proof
end

