-- ==== Sys2Proof/Config.lean ====
section
/-!
DEFINITION. What the spec fixes once for the whole machine, and its one open value (00_scope.md R6).
The parameters a test of the hardware could show wrong (the font, the order of flag and result, the port
words) stand beside the operations that use them, under Sys2Proof/Machine/.
-/

namespace Sys2Proof.Config

/-- `PROG_BASE`: the load offset and the reset value of `pc` (R6, R192). -/
def progBase : Addr := 0x200

/-- `ROM_MAX`: the largest program image, in bytes (R6, R193; conflict C1). -/
def romMax : Nat := 3584

/-- The free value of the machine: the byte the random source yields at its `n`-th draw after seeding.
The spec leaves the generator and its seed open (R6 `OPEN`, 10_state.md R31, D17): "a model that proves
properties of programs treats each byte as a free draw in 0..255". It has no body, so a theorem about it
holds for every sequence of bytes. Log entry 3 (DESIGN CHOICE, safe). -/
opaque randomByte : Nat → Byte

end Sys2Proof.Config
end

