-- ==== Sys2Proof/Machine/State.lean ====
section
/-!
DEFINITION. The complete state of the core (10_state.md R20), as plain data, its reset value (R34), and the
reasons a step can stop.
-/

namespace Sys2Proof.Machine

/-- The status register `FAULT` (10_state.md R33): 0 running, 1 `StackOverflow`, 2 `StackUnderflow`. -/
inductive FaultStatus where
  /-- Code 0: no fault. -/
  | running
  /-- Code 1: `CALL` with 16 live entries (60_exceptions.md R171). -/
  | stackOverflow
  /-- Code 2: `RET` with no live entry (60_exceptions.md R172). -/
  | stackUnderflow
deriving DecidableEq, Repr

/-- The reasons a step stops with a fault: none. The two faults of this machine are values of its own
register `FAULT`, and a faulted core still answers a next state (R97, R176); nothing raises a member of
this type. Log entry 7 (DEDUCED, safe). -/
inductive Fault where
deriving DecidableEq, Repr

/-- The reasons a step is refused. -/
inductive Refusal where
  /-- Raised by an arm of `exec` whose instruction has no meaning in the model (safe: nothing is claimed of
  it). No arm raises it: every instruction has its meaning. -/
  | notModelled (mnemonic : String)
deriving DecidableEq, Repr

/-- `MEM`, as the cells whose contents differ from the reset contents: addresses strictly rising, no entry
equal to what an unlisted address reads as (`Memory.wf`, Machine/Memory.lean). -/
abbrev Memory := List Host.Cell

/-- `FB[yy][xx]`: 32 rows of 64 pixels, true for on (10_state.md R29). -/
abbrev Framebuffer := Vector (Vector Bool 64) 32

/-- The state of the core (10_state.md R20), and `keyInput`, which is the model's own. -/
structure State where
  /-- `V[0]`..`V[15]`; `V[15]` is `VF` (R21, R22). -/
  v : Vector Byte 16
  /-- `I`, the address register (R23). -/
  i : Addr
  /-- `pc`, the program counter (R24). -/
  pc : Addr
  /-- `STACK[0]`..`STACK[15]`, the return addresses (R25). -/
  stack : Vector Addr 16
  /-- `SP`, the number of live entries, 0 to 16 (R25). -/
  sp : Fin 17
  /-- `DT`, the delay timer (R26). -/
  dt : Byte
  /-- `ST`, the sound timer (R27). -/
  st : Byte
  /-- `MEM` (R28). -/
  mem : Memory
  /-- `FB` (R29). -/
  fb : Framebuffer
  /-- `KEYS`, the key vector sampled for the current cycle (R30). -/
  keys : KeyVector
  /-- The model's own: the key vectors the host presents in the coming cycles, the next one first. When it
  is empty the lines keep their level. Log entry 1 (DESIGN CHOICE, safe). -/
  keyInput : List KeyVector
  /-- `RNG`, the state of the random source (R31): the number of bytes drawn since seeding. Log entry 3. -/
  rng : Nat
  /-- `OPCODE`, the last fetched word (R32). -/
  opcode : Word
  /-- `FAULT` (R33). -/
  fault : FaultStatus
deriving DecidableEq, Repr

/-- The machine right after reset, before a program is loaded (10_state.md R34, 70_reset_and_hazards.md
R190). Memory lists nothing: every cell holds its reset contents. `rng` and `keyInput`: log entries 3 and 2. -/
def State.reset : State where
  v := Vector.replicate 16 0
  i := 0
  pc := Config.progBase
  stack := Vector.replicate 16 0
  sp := 0
  dt := 0
  st := 0
  mem := []
  fb := Vector.replicate 32 (Vector.replicate 64 false)
  keys := 0
  keyInput := []
  rng := 0
  opcode := 0
  fault := .running

end Sys2Proof.Machine
end

