-- ==== Sys2Proof/Machine/Memory.lean ====
section
/-!
DEFINITION. The memory: its reset contents with the font (10_state.md R34, R38), its canonical form, and the
two primitives `MemRead` and `MemWrite` (20_memory.md R51). An address is 12 bits wide, so the mask
`AND 0xFFF` of every effective address is the wrap of its type (R51, R59).
-/

namespace Sys2Proof.Machine

/-- `FONT_BASE` (00_scope.md R6, 10_state.md R38). -/
def fontBase : Addr := 0x050

/-- The font's glyphs for the digits 0 to 7, five rows each, top row first (10_state.md R38). -/
def fontLow : List Byte :=
  [0xF0, 0x90, 0x90, 0x90, 0xF0] ++ [0x20, 0x60, 0x20, 0x20, 0x70] ++
  [0xF0, 0x10, 0xF0, 0x80, 0xF0] ++ [0xF0, 0x10, 0xF0, 0x10, 0xF0] ++
  [0x90, 0x90, 0xF0, 0x10, 0x10] ++ [0xF0, 0x80, 0xF0, 0x10, 0xF0] ++
  [0xF0, 0x80, 0xF0, 0x90, 0xF0] ++ [0xF0, 0x10, 0x20, 0x40, 0x40]

/-- The font's glyphs for the digits 8 to F (10_state.md R38). -/
def fontHigh : List Byte :=
  [0xF0, 0x90, 0xF0, 0x90, 0xF0] ++ [0xF0, 0x90, 0xF0, 0x10, 0xF0] ++
  [0xF0, 0x90, 0xF0, 0x90, 0xF0] ++ [0xE0, 0x90, 0xE0, 0x90, 0xE0] ++
  [0xF0, 0x80, 0x80, 0x80, 0xF0] ++ [0xE0, 0x90, 0x90, 0x90, 0xE0] ++
  [0xF0, 0x80, 0xF0, 0x80, 0xF0] ++ [0xF0, 0x80, 0xF0, 0x80, 0x80]

/-- The Font Table: 80 bytes, five for each hexadecimal digit (10_state.md R38; the bytes are the spec's
general knowledge, log entry 9). -/
def fontTable : List Byte := fontLow ++ fontHigh

/-- The reset contents of a cell: the font at 0x050..0x09F, zero elsewhere (10_state.md R34). It is what an
address that memory does not list reads as. -/
def resetByte (address : Nat) : Byte :=
  if fontBase.toNat ≤ address then fontTable.getD (address - fontBase.toNat) 0 else 0

/-- The canonical form from `lowest` on: addresses strictly rising and below 4096, no cell at its reset
contents. -/
def Memory.canonicalFrom : Nat → Memory → Bool
  | _, [] => true
  | lowest, (address, byte) :: rest =>
    decide (lowest ≤ address) && decide (address < 4096) && decide (byte ≠ resetByte address) &&
      Memory.canonicalFrom (address + 1) rest

/-- The canonical form of memory: with it, memories that read alike are the same list. -/
def Memory.wf (m : Memory) : Bool := Memory.canonicalFrom 0 m

/-- The listed contents of an address. -/
def Memory.lookup (address : Nat) : Memory → Option Byte
  | [] => none
  | (a, b) :: rest => if address = a then some b else Memory.lookup address rest

/-- A cell put before a list, unless it holds its reset contents. -/
def Memory.consCell (address : Nat) (byte : Byte) (rest : Memory) : Memory :=
  if byte = resetByte address then rest else (address, byte) :: rest

/-- The list with `byte` at `address`; it keeps the canonical form. -/
def Memory.insertCell (address : Nat) (byte : Byte) : Memory → Memory
  | [] => Memory.consCell address byte []
  | (a, b) :: rest =>
    if address < a then Memory.consCell address byte ((a, b) :: rest)
    else if address = a then Memory.consCell address byte rest
    else (a, b) :: Memory.insertCell address byte rest

/-- `MemRead(addr, 1)` (20_memory.md R51). -/
def Memory.read (m : Memory) (a : Addr) : Byte :=
  (Memory.lookup a.toNat m).getD (resetByte a.toNat)

/-- `MemWrite(addr, 1, v)` (20_memory.md R51). -/
def Memory.write (m : Memory) (a : Addr) (byte : Byte) : Memory :=
  Memory.insertCell a.toNat byte m

/-- Bytes written at rising addresses from `a` on, wrapping at the top (R59). -/
def Memory.writeList (m : Memory) (a : Addr) : List Byte → Memory
  | [] => m
  | byte :: rest => Memory.writeList (Memory.write m a byte) (a + 1) rest

end Sys2Proof.Machine
end

