-- ==== Sys2Proof/Machine/Ops.lean ====
section
/-!
DEFINITION. The named operations every meaning is written over: registers, `pc` and the skip, the call
stack, fault entry, and the parts of the cycle around the handler (40_cycle_and_dispatch.md R90).
-/

namespace Sys2Proof.Machine

/-- What a meaning and a step answer. -/
abbrev Result := Host.Outcome State Fault Refusal

/-! ## Registers, `pc`, skip -/

/-- `V[x]` (00_scope.md R10). -/
def State.reg (s : State) (x : RegIdx) : Byte := s.v[x]

/-- `V[x] <- b` (00_scope.md R10). -/
def State.setReg (s : State) (x : RegIdx) (b : Byte) : State := { s with v := s.v.set x b }

/-- `I <- a`; the mask is the type's wrap (10_state.md R23). -/
def State.setI (s : State) (a : Addr) : State := { s with i := a }

/-- `pc <- a`; the mask is the type's wrap (10_state.md R24). -/
def State.setPc (s : State) (a : Addr) : State := { s with pc := a }

/-- `DT <- b` (00_scope.md R10). -/
def State.setDt (s : State) (b : Byte) : State := { s with dt := b }

/-- `ST <- b` (00_scope.md R10). -/
def State.setSt (s : State) (b : Byte) : State := { s with st := b }

/-- `MEM` as a whole takes `m`; the writes themselves are `Memory.write` (20_memory.md R51). -/
def State.setMem (s : State) (m : Memory) : State := { s with mem := m }

/-- `FB` as a whole takes `fb` (10_state.md R29). -/
def State.setFb (s : State) (fb : Framebuffer) : State := { s with fb := fb }

/-- `RNG <- r` (10_state.md R31). -/
def State.setRng (s : State) (r : Nat) : State := { s with rng := r }

/-- `skip`: `pc <- (pc + 2) AND 0xFFF`, beyond the pre-advance (41_control_flow.md R108). -/
def State.skip (s : State) : State := s.setPc (s.pc + 2)

/-- `if c: skip`. -/
def State.skipIf (s : State) (c : Bool) : State := if c then s.skip else s

/-- `pc <- (pc - 2) AND 0xFFF`: from the pre-advanced `pc` back to `pc0` (R162, R176). -/
def State.retreat (s : State) : State := s.setPc (s.pc - 2)

/-! ## The call stack (10_state.md R25) -/

/-- The push of `CALL`: `STACK[SP] <- pc; SP <- SP + 1`; none when the stack is full (41_control_flow.md R102). -/
def State.pushPc (s : State) : Option State :=
  if h : s.sp.val < 16 then
    some { s with stack := s.stack.set s.sp.val s.pc h, sp := ⟨s.sp.val + 1, by omega⟩ }
  else none

/-- The pop of `RET`: `SP <- SP - 1; pc <- STACK[SP]`; none when the stack is empty. The popped entry keeps
its value (41_control_flow.md R100, 10_state.md R25). -/
def State.popPc (s : State) : Option State :=
  if h : 0 < s.sp.val then
    some { s with pc := s.stack[s.sp.val - 1], sp := ⟨s.sp.val - 1, by omega⟩ }
  else none

/-! ## Fault entry (60_exceptions.md R176)

The one exception mechanism of the machine. It saves nothing and goes nowhere; there is no handler, no
mode, and no return from it (R177): only reset leaves the faulted state. -/

/-- `raise F(pc0)` inside a handler: `FAULT <- code(F)`, `pc <- pc0`. A handler runs with `pc = pc0 + 2`
(R93), so `pc0` is `pc - 2`. That the rest of the cycle is abandoned is `finishCycle`. -/
def raiseFault (f : FaultStatus) (s : State) : Result := .next { s.retreat with fault := f }

/-! ## The random source (10_state.md R31) -/

/-- `RngNext : RNG -> (byte, RNG)` (R31, R166). The byte is the free value. Log entry 3. -/
def rngNext (r : Nat) : Byte × Nat := (Config.randomByte r, r + 1)

/-! ## The cycle around the handler (40_cycle_and_dispatch.md R90) -/

/-- Step 1, fetch: the byte at `pc` in bits 15:8, the byte at `pc + 1` in bits 7:0 (20_memory.md R52, R92). -/
def fetchWord (s : State) : Word :=
  wordOfBytes (Memory.read s.mem s.pc) (Memory.read s.mem (s.pc + 1))

/-- The key lines of this cycle: the vector the host presents, or the level they had (10_state.md R30).
Log entry 1. -/
def sampleKeys (s : State) : State :=
  match s.keyInput with
  | [] => s
  | k :: rest => { s with keys := k, keyInput := rest }

/-- What a cycle does before the handler: sample the keys, fetch into `OPCODE`, and advance `pc` by 2
(R90 steps 1 and 2, R93). -/
def beginCycle (s : State) : State :=
  { sampleKeys s with opcode := fetchWord s, pc := s.pc + 2 }

/-- One timer tick: "decremented ... floored at 0, never wrapping negative" (10_state.md R26, R179). -/
def tick (b : Byte) : Byte := if b = 0 then 0 else b - 1

/-- `TimerStep` (60_exceptions.md R179). -/
def timerStep (s : State) : State := { s with dt := tick s.dt, st := tick s.st }

/-- What a cycle does after the handler, `s0` being the state it began in: the timer step, or, when the
handler raised a fault, nothing but undoing the key sampling ("every state change of the cycle is undone
except the write of `FAULT`", R90, R176). Log entry 6. -/
def finishCycle (s0 : State) : Result → Result
  | .next t =>
    if t.fault = .running then .next (timerStep t)
    else .next { t with keys := s0.keys, keyInput := s0.keyInput }
  | .fault r => .fault r
  | .refused r => .refused r

end Sys2Proof.Machine
end

