-- ==== Sys2Proof/Machine/Flags.lean ====
section
/-!
DEFINITION. The arithmetic that writes `VF` (42_alu.md R131): each operation gives the flag and the narrowed
result, both computed on exact integers; and the order in which the two are written (R96).
-/

namespace Sys2Proof.Machine

/-- A flag as the byte `VF` takes: "a flag-writing instruction writes all 8 bits of `VF` with exactly 0 or
1" (10_state.md R22). -/
def flagByte (c : Bool) : Byte := if c then 1 else 0

/-- Addition: the carry of the 9-bit sum, and the sum modulo 256 (R131, R126). -/
def addWithCarry (a b : Byte) : Bool × Byte :=
  let sum := a.toNat + b.toNat
  (decide (sum > 255), BitVec.ofNat 8 sum)

/-- Subtraction `a - b`: the flag is 1 when no borrow occurred, and the difference modulo 256 (R131, R127). -/
def subNoBorrow (a b : Byte) : Bool × Byte :=
  let difference : Int := (a.toNat : Int) - (b.toNat : Int)
  (decide (difference ≥ 0), BitVec.ofInt 8 difference)

/-- Shift right by one: bit 0 of the original value leaves, a zero enters (R131, R128). -/
def shiftRight (a : Byte) : Bool × Byte :=
  (a.getLsbD 0, BitVec.ofNat 8 (a.toNat / 2))

/-- Shift left by one: bit 7 of the original value leaves, a zero enters (R131, R130). -/
def shiftLeft (a : Byte) : Bool × Byte :=
  (a.getLsbD 7, BitVec.ofNat 8 (a.toNat * 2))

/-- `VF_LAST`: false, the flag is written first and the result last (00_scope.md R6, R96, D6). Log entry 8. -/
def vfLast : Bool := false

/-- The flag to `VF` and the result to `V[x]`, in the order `VF_LAST` gives; it matters only when `x` is 15
(40_cycle_and_dispatch.md R96). -/
def State.setFlagAndResult (s : State) (x : RegIdx) (r : Bool × Byte) : State :=
  if vfLast then (s.setReg x r.2).setReg vF (flagByte r.1)
  else (s.setReg vF (flagByte r.1)).setReg x r.2

end Sys2Proof.Machine
end

