-- ==== Sys2Proof/Machine/Alu.lean ====
section
/-!
DEFINITION. Register load, arithmetic and logic (42_alu.md). Operands are read before any write (R96). The
first six instructions do not write `VF` as a flag (R132).
-/

namespace Sys2Proof.Machine

/-- `LD Vx, byte` (R120). -/
def execLdByte (x : RegIdx) (kk : Byte) (s : State) : Result := .next (s.setReg x kk)

/-- `ADD Vx, byte` (R121): modulo 256, no carry (R132). -/
def execAddByte (x : RegIdx) (kk : Byte) (s : State) : Result :=
  .next (s.setReg x (BitVec.ofNat 8 ((s.reg x).toNat + kk.toNat)))

/-- `LD Vx, Vy` (R122). -/
def execLdReg (x y : RegIdx) (s : State) : Result := .next (s.setReg x (s.reg y))

/-- `OR Vx, Vy` (R123). -/
def execOrReg (x y : RegIdx) (s : State) : Result := .next (s.setReg x (s.reg x ||| s.reg y))

/-- `AND Vx, Vy` (R124). -/
def execAndReg (x y : RegIdx) (s : State) : Result := .next (s.setReg x (s.reg x &&& s.reg y))

/-- `XOR Vx, Vy` (R125). -/
def execXorReg (x y : RegIdx) (s : State) : Result := .next (s.setReg x (s.reg x ^^^ s.reg y))

/-- `ADD Vx, Vy` (R126): `VF` takes the carry. -/
def execAddReg (x y : RegIdx) (s : State) : Result :=
  .next (s.setFlagAndResult x (addWithCarry (s.reg x) (s.reg y)))

/-- `SUB Vx, Vy` (R127): `V[x] - V[y]`, `VF` is 1 when no borrow occurred. -/
def execSubReg (x y : RegIdx) (s : State) : Result :=
  .next (s.setFlagAndResult x (subNoBorrow (s.reg x) (s.reg y)))

/-- `SHR Vx` (R128): in place, `V[y]` is neither read nor written. -/
def execShr (x : RegIdx) (s : State) : Result :=
  .next (s.setFlagAndResult x (shiftRight (s.reg x)))

/-- `SUBN Vx, Vy` (R129): `V[y] - V[x]`, `VF` is 1 when no borrow occurred. -/
def execSubnReg (x y : RegIdx) (s : State) : Result :=
  .next (s.setFlagAndResult x (subNoBorrow (s.reg y) (s.reg x)))

/-- `SHL Vx` (R130): in place, `V[y]` is neither read nor written. -/
def execShl (x : RegIdx) (s : State) : Result :=
  .next (s.setFlagAndResult x (shiftLeft (s.reg x)))

end Sys2Proof.Machine
end

