-- ==== Sys2Proof/Machine/Control.lean ====
section
/-!
DEFINITION. Control flow and the no-op (41_control_flow.md, 40_cycle_and_dispatch.md R95). A handler runs
with `pc` already advanced to `(pc0 + 2) AND 0xFFF` (R93).
-/

namespace Sys2Proof.Machine

/-- `RET` (R100): with an empty stack it takes the fault `StackUnderflow` (R172). -/
def execRet (s : State) : Result :=
  match s.popPc with
  | some t => .next t
  | none => raiseFault .stackUnderflow s

/-- `JP addr` (R101). -/
def execJp (nnn : Addr) (s : State) : Result := .next (s.setPc nnn)

/-- `CALL addr` (R102): with a full stack it takes the fault `StackOverflow` (R171). -/
def execCall (nnn : Addr) (s : State) : Result :=
  match s.pushPc with
  | some t => .next (t.setPc nnn)
  | none => raiseFault .stackOverflow s

/-- `SE Vx, byte` (R103). -/
def execSeByte (x : RegIdx) (kk : Byte) (s : State) : Result := .next (s.skipIf (s.reg x == kk))

/-- `SNE Vx, byte` (R104). -/
def execSneByte (x : RegIdx) (kk : Byte) (s : State) : Result := .next (s.skipIf (s.reg x != kk))

/-- `SE Vx, Vy` (R105). -/
def execSeReg (x y : RegIdx) (s : State) : Result := .next (s.skipIf (s.reg x == s.reg y))

/-- `SNE Vx, Vy` (R106). -/
def execSneReg (x y : RegIdx) (s : State) : Result := .next (s.skipIf (s.reg x != s.reg y))

/-- `JP V0, addr` (R107): the offset is always `V[0]`, and the sum wraps at 12 bits. -/
def execJpV0 (nnn : Addr) (s : State) : Result :=
  .next (s.setPc (BitVec.ofNat 12 (nnn.toNat + (s.reg 0).toNat)))

/-- `NOP`, a word of nibble 0 (R95): the handler changes no state. -/
def execNop0 (s : State) : Result := .next s

/-- `NOP`, a word of nibble 8 (R95): the handler changes no state. -/
def execNop8 (s : State) : Result := .next s

/-- `NOP`, a word of nibble E (R95): the handler changes no state. -/
def execNopE (s : State) : Result := .next s

/-- `NOP`, a word of nibble F (R95): the handler changes no state. -/
def execNopF (s : State) : Result := .next s

end Sys2Proof.Machine
end

