-- ==== Sys2Proof/Machine/Operands.lean ====
section
/-!
DEFINITION. The operand forms: the effective address, key numbers, the registers of a block, the decimal
digits of a byte, and the address of a glyph. Register and immediate operands are fields of the instruction.
-/

namespace Sys2Proof.Machine

/-- `EA(k) = (I + k) AND 0xFFF` (43_index_memory.md R146). -/
def effectiveAddress (i : Addr) (k : Nat) : Addr := i + BitVec.ofNat 12 k

/-- A byte as an unsigned address, `zext_12` (00_scope.md R10). -/
def zextAddr (b : Byte) : Addr := b.setWidth 12

/-- The key a register's value selects: `V[x] AND 0xF` (45_keypad_timers_random.md R160). -/
def keyOf (b : Byte) : KeyIdx := (b.extractLsb' 0 4).toFin

/-- `KEYS[k]` (00_scope.md R10). -/
def State.keyDown (s : State) (k : KeyIdx) : Bool := s.keys.getLsbD k.val

/-- The smallest `k` with `KEYS[k]` (45_keypad_timers_random.md R162). -/
def State.lowestKey (s : State) : Option KeyIdx := (List.finRange 16).find? s.keyDown

/-- A key's number as the byte `LD Vx, K` loads (R162). -/
def keyByte (k : KeyIdx) : Byte := BitVec.ofNat 8 k.val

/-- The registers `V[0]`..`V[x]` of a block store or load, in ascending order (R144, R145: `x` is the
inclusive upper index, not a count). -/
def blockRegs (x : RegIdx) : List RegIdx := (List.finRange 16).take (x.val + 1)

/-- The three decimal digits of a byte, most significant first (43_index_memory.md R143). -/
def bcdDigits (b : Byte) : List Byte :=
  [BitVec.ofNat 8 (b.toNat / 100), BitVec.ofNat 8 (b.toNat / 10 % 10), BitVec.ofNat 8 (b.toNat % 10)]

/-- The address of the glyph of a digit: `(FONT_BASE + 5 * V[x]) AND 0xFFF`, on the full byte
(43_index_memory.md R142). -/
def glyphAddress (b : Byte) : Addr := BitVec.ofNat 12 (fontBase.toNat + 5 * b.toNat)

end Sys2Proof.Machine
end

