-- ==== Sys2Proof/Machine/Graphics.lean ====
section
/-!
DEFINITION. The framebuffer and the two instructions that write it (44_graphics.md).
-/

namespace Sys2Proof.Machine

/-- `FB[yy][xx]` (00_scope.md R10): row `yy`, column `xx`, true for on. -/
def Framebuffer.pixel (fb : Framebuffer) (yy : Fin 32) (xx : Fin 64) : Bool := (fb[yy])[xx]

/-- `FB[yy][xx] <- FB[yy][xx] XOR 1`. -/
def Framebuffer.toggle (fb : Framebuffer) (yy : Fin 32) (xx : Fin 64) : Framebuffer :=
  fb.set yy ((fb[yy]).set xx (!Framebuffer.pixel fb yy xx))

/-- The framebuffer with every pixel off (R150). -/
def Framebuffer.clear : Framebuffer := Vector.replicate 32 (Vector.replicate 64 false)

/-- The column `(xs + col) mod 64` (R151). -/
def pixelColumn (xs : Byte) (col : Nat) : Fin 64 :=
  ⟨(xs.toNat + col) % 64, Nat.mod_lt _ (by decide)⟩

/-- The row `(ys + row) mod 32` (R151). -/
def pixelRow (ys : Byte) (row : Nat) : Fin 32 :=
  ⟨(ys.toNat + row) % 32, Nat.mod_lt _ (by decide)⟩

/-- A drawing under way: the framebuffer so far, and whether a pixel has gone from on to off. -/
structure Drawing where
  fb : Framebuffer
  collision : Bool
deriving DecidableEq, Repr

/-- One bit of a sprite row: bit `7 - col` of `b` toggles its pixel, and a pixel that was on is a collision
(R151). A bit of 0 leaves its pixel alone. -/
def drawBit (xs ys b : Byte) (row : Nat) (d : Drawing) (col : Nat) : Drawing :=
  if b.getLsbD (7 - col) then
    let px := pixelColumn xs col
    let py := pixelRow ys row
    { fb := Framebuffer.toggle d.fb py px
      collision := d.collision || Framebuffer.pixel d.fb py px }
  else d

/-- One row of a sprite: its eight bits, the leftmost first (R151). -/
def drawSpriteRow (m : Memory) (i : Addr) (xs ys : Byte) (d : Drawing) (row : Nat) : Drawing :=
  (List.range 8).foldl (drawBit xs ys (Memory.read m (effectiveAddress i row)) row) d

/-- A sprite of `n` rows read from `EA(0)`..`EA(n - 1)` (R151, R146). -/
def drawSprite (m : Memory) (i : Addr) (xs ys : Byte) (n : Nat) (fb : Framebuffer) : Drawing :=
  (List.range n).foldl (drawSpriteRow m i xs ys) { fb := fb, collision := false }

/-- `CLS` (R150): `VF` is not written. -/
def execCls (s : State) : Result := .next (s.setFb Framebuffer.clear)

/-- `DRW Vx, Vy, n` (R151): the coordinates are read before `VF` is written (R96); `VF` takes the collision
flag in every case. -/
def execDrw (x y : RegIdx) (n : Fin 16) (s : State) : Result :=
  let d := drawSprite s.mem s.i (s.reg x) (s.reg y) n.val s.fb
  .next ((s.setReg vF (flagByte d.collision)).setFb d.fb)

end Sys2Proof.Machine
end

