-- ==== Sys2Proof/Machine/IndexMemory.lean ====
section
/-!
DEFINITION. The address register and the loads and stores through it (43_index_memory.md). No instruction of
this file writes `VF` as a flag, and no load or store changes `I`.
-/

namespace Sys2Proof.Machine

/-- `LD I, addr` (R140). -/
def execLdI (nnn : Addr) (s : State) : Result := .next (s.setI nnn)

/-- `ADD I, Vx` (R141): the sum wraps at 12 bits, `VF` is not written. -/
def execAddI (x : RegIdx) (s : State) : Result := .next (s.setI (s.i + zextAddr (s.reg x)))

/-- `LD F, Vx` (R142). -/
def execLdF (x : RegIdx) (s : State) : Result := .next (s.setI (glyphAddress (s.reg x)))

/-- `LD B, Vx` (R143): the decimal digits of `V[x]` to `EA(0)`, `EA(1)`, `EA(2)`. -/
def execLdB (x : RegIdx) (s : State) : Result :=
  .next (s.setMem (Memory.writeList s.mem s.i (bcdDigits (s.reg x))))

/-- `LD [I], Vx` (R144): `V[0]`..`V[x]` to `EA(0)`..`EA(x)`. -/
def execStoreRegs (x : RegIdx) (s : State) : Result :=
  .next (s.setMem (Memory.writeList s.mem s.i ((blockRegs x).map s.reg)))

/-- The registers of a list loaded from memory, register `k` from `EA(k)` (R145, R146). -/
def State.loadBlock (s : State) : List RegIdx → State
  | [] => s
  | k :: rest =>
    State.loadBlock (s.setReg k (Memory.read s.mem (effectiveAddress s.i k.val))) rest

/-- `LD Vx, [I]` (R145): `V[0]`..`V[x]` from `EA(0)`..`EA(x)`. -/
def execLoadRegs (x : RegIdx) (s : State) : Result := .next (s.loadBlock (blockRegs x))

end Sys2Proof.Machine
end

