-- ==== Sys2Proof/Machine/System.lean ====
section
/-!
DEFINITION. Keypad, timers and random (45_keypad_timers_random.md): "the machine's only "system"
instructions". None writes `VF` as a flag. The timer step of the same cycle follows the handler (R90).
-/

namespace Sys2Proof.Machine

/-- `SKP Vx` (R160). -/
def execSkp (x : RegIdx) (s : State) : Result := .next (s.skipIf (s.keyDown (keyOf (s.reg x))))

/-- `SKNP Vx` (R161). -/
def execSknp (x : RegIdx) (s : State) : Result := .next (s.skipIf (!s.keyDown (keyOf (s.reg x))))

/-- `LD Vx, K` (R162): the lowest-numbered pressed key, by level; with none, `pc` goes back to this
instruction, which the next cycle fetches again. -/
def execLdVxK (x : RegIdx) (s : State) : Result :=
  match s.lowestKey with
  | some k => .next (s.setReg x (keyByte k))
  | none => .next s.retreat

/-- `LD Vx, DT` (R163): `DT` before this cycle's timer step. -/
def execLdVxDt (x : RegIdx) (s : State) : Result := .next (s.setReg x s.dt)

/-- `LD DT, Vx` (R164). -/
def execLdDtVx (x : RegIdx) (s : State) : Result := .next (s.setDt (s.reg x))

/-- `LD ST, Vx` (R165). -/
def execLdStVx (x : RegIdx) (s : State) : Result := .next (s.setSt (s.reg x))

/-- `RND Vx, byte` (R166): one byte is drawn, also when `kk` is 0. -/
def execRnd (x : RegIdx) (kk : Byte) (s : State) : Result :=
  let draw := rngNext s.rng
  .next ((s.setReg x (draw.1 &&& kk)).setRng draw.2)

end Sys2Proof.Machine
end

