-- ==== Sys2Proof/Machine/Step.lean ====
section
/-!
DEFINITION. One invocation of the Cycle Driver (40_cycle_and_dispatch.md R90), and the placing of a word
where the next cycle fetches.
-/

namespace Sys2Proof.Machine

/-- `Cycle` (R90): in the faulted state nothing at all (R97); otherwise sample the keys, fetch and advance
(`beginCycle`), decode, run exactly one handler, and tick the timers or abandon the cycle (`finishCycle`). -/
def step (s : State) : Host.Outcome State Fault Refusal :=
  if s.fault = .running then finishCycle s (exec (decode (fetchWord s)) (beginCycle s))
  else .next s

/-- `s` with the word `w` of `nbits` bits stored at `pc`, high byte first (20_memory.md R52), where the next
cycle fetches. A faulted core fetches nothing (R97), so `FAULT` is set to running. Log entry 11. -/
def State.withFetchWord (s : State) (nbits w : Nat) : State :=
  let word : Word := BitVec.ofNat 16 (w % 2 ^ nbits)
  { s with
    mem := Memory.writeList s.mem s.pc [highByte word, lowByte word]
    fault := .running }

end Sys2Proof.Machine
end

