-- ==== Sys2Proof/WellFormed.lean ====
section
/-!
DEFINITION. The checks on what enters the machine from outside.

An instruction needs no check: a register number is a `Fin 16`, an immediate a byte, an address 12 bits, a
height a `Fin 16` (30_encoding.md R71, R73), and every value of each field is legal (R79: every code point
decodes). So every term of `Instr` is well formed, and the one thing that can be ill formed is a program
image, whose length the spec bounds (70_reset_and_hazards.md R193).
-/

namespace Sys2Proof

/-- A program image the loader accepts: at most `ROM_MAX` bytes (R193). -/
def imageWellFormed (image : List Byte) : Bool :=
  decide (image.length ≤ Config.romMax)

end Sys2Proof
end

