-- ==== Sys2Proof/Machine/Boot.lean ====
section
/-!
DEFINITION. The host's side of the core: program load (70_reset_and_hazards.md R192, R193) and the output
ports (10_state.md R29, R39). The host acts only between cycles (R40).
-/

namespace Sys2Proof.Machine

/-- The `load_addr`, `load_data`, `load_we` port: one byte of `MEM`, legal only between reset and the first
cycle (10_state.md R39). -/
def State.loadByte (s : State) (a : Addr) (b : Byte) : State := s.setMem (Memory.write s.mem a b)

/-- Program load: byte `k` of the image to `MEM[0x200 + k]`, nothing else changed (R192). -/
def State.loadImage (s : State) (image : List Byte) : State :=
  s.setMem (Memory.writeList s.mem Config.progBase image)

/-- Reset and load: the state before the first cycle; none for an image the loader rejects as `RomTooLarge`,
which the core never runs (R193). -/
def State.boot (image : List Byte) : Option State :=
  if imageWellFormed image then some (State.reset.loadImage image) else none

/-- `FB_ON` (00_scope.md R6, D14). -/
def fbOn : BitVec 32 := 0xFFFFFFFF

/-- `FB_OFF` (00_scope.md R6, D14). -/
def fbOff : BitVec 32 := 0x00000000

/-- The `fb` port: word `yy * 64 + xx` of the 2048-word array is pixel (`xx`, `yy`) (10_state.md R29, R39). -/
def State.fbPort (s : State) (k : Fin 2048) : BitVec 32 :=
  if Framebuffer.pixel s.fb ⟨k.val / 64, by omega⟩ ⟨k.val % 64, Nat.mod_lt _ (by decide)⟩ then fbOn else fbOff

/-- The `sound` port: the current value of `ST` (10_state.md R27, 60_exceptions.md R181). -/
def State.soundPort (s : State) : Byte := s.st

/-- The code of a fault (60_exceptions.md R170). -/
def FaultStatus.code : FaultStatus → BitVec 2
  | .running => 0
  | .stackOverflow => 1
  | .stackUnderflow => 2

/-- The `fault` port: the current value of `FAULT` (10_state.md R33, R39). -/
def State.faultPort (s : State) : BitVec 2 := s.fault.code

end Sys2Proof.Machine
end

