-- ==== Sys2Proof/Safety.lean ====
section
/-!
DEFINITION. What a claim means by a safe run, and the invariant of the machine.
-/

namespace Sys2Proof.Machine

/-- A safe state: the core is running. "A claim about a program takes `FAULT == 0` as a premise and must show
it is preserved" (60_exceptions.md R177). -/
def State.Safe (s : State) : Prop := s.fault = .running

/-- `k` cycles from `s`, every state on the way safe, end in `t`. -/
def SafeRun : Nat → State → State → Prop
  | 0, s, t => s.Safe ∧ t = s
  | k + 1, s, t => s.Safe ∧ ∃ u, step s = .next u ∧ SafeRun k u t

/-- What `FAULT` says of the rest of the state (60_exceptions.md R170): after `StackOverflow` the stack is
full and `pc` stays at the faulting `CALL`; after `StackUnderflow` it is empty and `pc` stays at the
faulting `RET`. -/
def State.FaultExplained (s : State) : Prop :=
  (s.fault = .stackOverflow → s.sp.val = 16 ∧ ∃ nnn, decode (fetchWord s) = .call nnn) ∧
  (s.fault = .stackUnderflow → s.sp.val = 0 ∧ decode (fetchWord s) = .ret)

/-- The invariant of the machine. The bounds of 10_state.md R36 are the types of the fields; what is left is
that memory keeps its canonical form (with every address inside 0x000..0xFFF) and that a fault is explained. -/
def State.Inv (s : State) : Prop := Memory.wf s.mem = true ∧ s.FaultExplained

end Sys2Proof.Machine
end

