-- ==== Sys2Proof/Certificates/Slice0/Obligations.lean ====
section
/-!
DEFINITION. The statements for the provers. A handler's statement speaks of `exec i s`, where `s` is the
state the handler sees: `pc` is already the address of the next instruction (40_cycle_and_dispatch.md R93).
A cycle's statement speaks of `step s`.
-/

namespace Sys2Proof.Machine

/-! ## Words the statements use -/

/-- `t` differs from `s` in general registers only, and in none outside `rs`. -/
def OnlyRegistersChange (rs : List RegIdx) (s t : State) : Prop :=
  t = { s with v := t.v } ∧ ∀ r, r ∉ rs → t.reg r = s.reg r

/-- `t` differs from `s` in `pc` only. -/
def OnlyPcChanges (s t : State) : Prop := t = { s with pc := t.pc }

/-- `t` differs from `s` in `I` only. -/
def OnlyIChanges (s t : State) : Prop := t = { s with i := t.i }

/-- `t` differs from `s` in memory only, and in no byte outside the `len` bytes from `a` on. -/
def OnlyBytesChange (a : Addr) (len : Nat) (s t : State) : Prop :=
  t = { s with mem := t.mem } ∧
  ∀ c : Addr, len ≤ (c - a).toNat → Memory.read t.mem c = Memory.read s.mem c

/-- The register an instruction of the machine names as its destination `Vx` (or loads, in a block load). -/
def NamesAsDestination : Instr → RegIdx → Prop
  | .ldByte x _, r | .addByte x _, r | .rnd x _, r => r = x
  | .ldReg x _, r | .orReg x _, r | .andReg x _, r | .xorReg x _, r => r = x
  | .addReg x _, r | .subReg x _, r | .subnReg x _, r => r = x
  | .shr x, r | .shl x, r | .ldVxDt x, r | .ldVxK x, r => r = x
  | .loadRegs x, r => r ≤ x
  | _, _ => False

/-- The six instructions that write `VF` as a flag (10_state.md R22). -/
def WritesFlag : Instr → Prop
  | .addReg _ _ | .subReg _ _ | .subnReg _ _ | .shr _ | .shl _ | .drw _ _ _ => True
  | _ => False

/-- The instructions that write `pc` (10_state.md R24): skips, `JP`, `CALL`, `RET`, `JP V0, addr` and the
retreat of `LD Vx, K`. -/
def WritesPc : Instr → Prop
  | .ret | .jp _ | .call _ | .jpV0 _ => True
  | .seByte _ _ | .sneByte _ _ | .seReg _ _ | .sneReg _ _ | .skp _ | .sknp _ | .ldVxK _ => True
  | _ => False

/-- A 1 bit of the sprite of `DRW Vx, Vy, n` falls on pixel (`xx`, `yy`): bit `7 - col` of the byte at
`(I + row) AND 0xFFF` falls on column `(V[x] + col) mod 64` of row `(V[y] + row) mod 32` (44_graphics.md R151). -/
def SpriteCovers (s : State) (x y : RegIdx) (n : Fin 16) (yy : Fin 32) (xx : Fin 64) : Prop :=
  ∃ row < n.val, ∃ col < 8,
    (Memory.read s.mem (s.i + BitVec.ofNat 12 row)).getLsbD (7 - col) = true ∧
    yy.val = ((s.reg y).toNat + row) % 32 ∧ xx.val = ((s.reg x).toNat + col) % 64

/-- A timer after one tick: one less, floored at 0 (60_exceptions.md R179). -/
def TickedFrom (b c : Byte) : Prop := c.toNat = b.toNat - 1

end Sys2Proof.Machine

open Sys2Proof Sys2Proof.Machine

/-! ## Encoding -/

/-- Decoding the bytes of an encoded instruction, whatever follows them, gives the instruction and the rest
(30_encoding.md, sections 1 to 3). -/
def Obligations.DecodeOfEncodedBytesGivesInstruction : Prop :=
  ∀ (i : Instr) (rest : List Byte), decodeBytes (encodeBytes i ++ rest) = .ok (i, rest)

/-- The decoder is the opcode map: every word selects the row of the instruction it decodes to, and every
other row it selects has a higher priority number (30_encoding.md R82, R83). -/
def Obligations.DecoderFollowsOpcodeMap : Prop :=
  ∀ w : Word, ∃ r ∈ opcodeRows, r.mnemonic = (decode w).mnemonic ∧ r.selects w ∧
    ∀ r' ∈ opcodeRows, r'.selects w → r' = r ∨ r.priority < r'.priority

/-- "The 34 specific rows are pairwise disjoint" (30_encoding.md R82): there are 34, and no word selects two. -/
def Obligations.SpecificRowsAreDisjoint : Prop :=
  specificRows.length = 34 ∧
  ∀ (w : Word) (r r' : OpcodeRow), r ∈ specificRows → r' ∈ specificRows → r.selects w → r'.selects w → r = r'

/-- The words that decode to the no-op are exactly the four sets of 30_encoding.md R79. (That the no-op has four
constructors is the model's choice, log entry 13.) -/
def Obligations.NoOpSetIsExact : Prop :=
  ∀ w : Word, (decode w).isNop = true ↔
    (topNibble w = 0x0 ∧ lowNibble w ∉ [0x0, 0xE]) ∨
    (topNibble w = 0x8 ∧ lowNibble w ∈ [0x8, 0x9, 0xA, 0xB, 0xC, 0xD, 0xF]) ∨
    (topNibble w = 0xE ∧ lowNibble w ∉ [0x1, 0xE]) ∨
    (topNibble w = 0xF ∧ fieldKk w ∉ [0x07, 0x0A, 0x15, 0x18, 0x1E, 0x29, 0x33, 0x55, 0x65])

/-- The bits R80 lists never affect decoding: bits 11:4 of `CLS` and `RET`, bits 3:0 of `SE Vx, Vy` and
`SNE Vx, Vy`, bits 7:4 of `SKP` and `SKNP`, bits 7:4 of `SHR` and `SHL` (30_encoding.md R80). -/
def Obligations.IgnoredBitsDoNotChangeDecoding : Prop :=
  ∀ w w' : Word, topNibble w = topNibble w' →
    (topNibble w = 0x0 → lowNibble w = lowNibble w' → decode w = decode w') ∧
    (topNibble w = 0x5 ∨ topNibble w = 0x9 → fieldX w = fieldX w' → fieldY w = fieldY w' →
      decode w = decode w') ∧
    (topNibble w = 0xE → fieldX w = fieldX w' → lowNibble w = lowNibble w' → decode w = decode w') ∧
    (topNibble w = 0x8 → lowNibble w = 0x6 ∨ lowNibble w = 0xE → fieldX w = fieldX w' →
      lowNibble w = lowNibble w' → decode w = decode w')

/-- Words written out from the opcode map, one or more of every family, decode to the instruction they stand
for (30_encoding.md R82). -/
def Obligations.SampleWordsDecode : Prop :=
  decode 0x00E0 = .cls ∧ decode 0x00EE = .ret ∧ decode 0x1ABC = .jp 0xABC ∧ decode 0x22F0 = .call 0x2F0 ∧
  decode 0x3A42 = .seByte 0xA 0x42 ∧ decode 0x5AB0 = .seReg 0xA 0xB ∧ decode 0x6AFF = .ldByte 0xA 0xFF ∧
  decode 0x8125 = .subReg 1 2 ∧ decode 0x8F0E = .shl 0xF ∧ decode 0xA300 = .ldI 0x300 ∧
  decode 0xD12F = .drw 1 2 0xF ∧ decode 0xE39E = .skp 3 ∧ decode 0xF20A = .ldVxK 2 ∧
  decode 0xF255 = .storeRegs 2 ∧ decode 0xC10F = .rnd 1 0x0F ∧ decode 0x800F = .nop8

/-! ## Fetch and the cycle -/

/-- The fetched word is big-endian: the byte at `pc` in bits 15:8, the byte at `pc + 1` in bits 7:0
(20_memory.md R52). -/
def Obligations.FetchIsBigEndian : Prop :=
  ∀ s : State, (fetchWord s).extractLsb' 8 8 = Memory.read s.mem s.pc ∧
    (fetchWord s).extractLsb' 0 8 = Memory.read s.mem (s.pc + 1)

/-- A step runs the decoded instruction (40_cycle_and_dispatch.md R90): in a running core whose bytes at `pc`
decode to `i`, the handler sees `pc` advanced by 2, the fetched word in `OPCODE`, the sampled keys, and
nothing else changed; when it raises no fault the timer step follows, and when it does the key sampling is
undone and nothing follows. That a key vector is taken from `keyInput` is the model's choice (log entry 1); that
`OPCODE` keeps the fetched word (10_state.md R32, D28) is log entry 5, and the undone key sampling log entry 6. -/
def Obligations.StepRunsDecodedInstruction : Prop :=
  ∀ (s t : State) (i : Instr), s.fault = .running →
    decodeBytes [Memory.read s.mem s.pc, Memory.read s.mem (s.pc + 1)] = .ok (i, []) →
    exec i { s with
      pc := s.pc + 2
      opcode := wordOfBytes (Memory.read s.mem s.pc) (Memory.read s.mem (s.pc + 1))
      keys := s.keyInput.headD s.keys
      keyInput := s.keyInput.tail } = .next t →
    (t.fault = .running → ∃ u, step s = .next u ∧ u = { t with dt := u.dt, st := u.st } ∧
      TickedFrom t.dt u.dt ∧ TickedFrom t.st u.st) ∧
    (t.fault ≠ .running → step s = .next { t with keys := s.keys, keyInput := s.keyInput })

/-- In the faulted state any number of cycles changes nothing (R97, R177), the model's own `keyInput` included (log
entry 1). -/
def Obligations.FaultIsSticky : Prop :=
  ∀ (s : State) (k : Nat), s.fault ≠ .running → Sys2Proof.core.run k s = .next s

/-- Every cycle, in every state, answers a next state: no word of memory stops the machine (R79, R173). That
the two faults are states and not stops is the model's reading (log entry 7). -/
def Obligations.EveryCycleAnswersANextState : Prop :=
  ∀ s : State, ∃ t, step s = .next t

/-- The invariant is kept by every cycle from every state that has it: memory stays canonical and inside
0x000..0xFFF, and a fault is explained by the stack and by the instruction at `pc`. -/
def Obligations.InvariantIsKept : Prop :=
  ∀ s t : State, s.Inv → step s = .next t → t.Inv

/-- The invariant holds right after reset. -/
def Obligations.InvariantHoldsAtReset : Prop := State.reset.Inv

/-- Reset (10_state.md R34): every register zero, `pc` at 0x200, memory zero outside the font, the framebuffer
off, no key pressed, no fault. (`RNG`'s reset value is a parameter of the spec and is not stated.) -/
def Obligations.ResetState : Prop :=
  (∀ r, State.reset.reg r = 0) ∧ State.reset.i = 0 ∧ State.reset.pc = 0x200 ∧ State.reset.sp.val = 0 ∧
  (∀ k : Fin 16, State.reset.stack[k] = 0) ∧ State.reset.dt = 0 ∧ State.reset.st = 0 ∧
  (∀ a : Addr, a.toNat < 0x050 ∨ 0x0A0 ≤ a.toNat → Memory.read State.reset.mem a = 0) ∧
  (∀ yy xx, Framebuffer.pixel State.reset.fb yy xx = false) ∧ (∀ k, State.reset.keyDown k = false) ∧
  State.reset.opcode = 0 ∧ State.reset.fault = .running

/-- The font after reset (10_state.md R38): the five bytes of each digit at `0x050 + 5 * d`, as the spec's table
gives them (from the spec's general knowledge, its entry G6). -/
def Obligations.FontIsInPlaceAtReset : Prop :=
  ∀ d : Fin 16, (List.range 5).map (fun k => Memory.read State.reset.mem (BitVec.ofNat 12 (0x050 + 5 * d.val + k))) =
    ([[0xF0, 0x90, 0x90, 0x90, 0xF0], [0x20, 0x60, 0x20, 0x20, 0x70], [0xF0, 0x10, 0xF0, 0x80, 0xF0],
      [0xF0, 0x10, 0xF0, 0x10, 0xF0], [0x90, 0x90, 0xF0, 0x10, 0x10], [0xF0, 0x80, 0xF0, 0x10, 0xF0],
      [0xF0, 0x80, 0xF0, 0x90, 0xF0], [0xF0, 0x10, 0x20, 0x40, 0x40]] ++
     [[0xF0, 0x90, 0xF0, 0x90, 0xF0], [0xF0, 0x90, 0xF0, 0x10, 0xF0], [0xF0, 0x90, 0xF0, 0x90, 0xF0],
      [0xE0, 0x90, 0xE0, 0x90, 0xE0], [0xF0, 0x80, 0x80, 0x80, 0xF0], [0xE0, 0x90, 0x90, 0x90, 0xE0],
      [0xF0, 0x80, 0xF0, 0x80, 0xF0], [0xF0, 0x80, 0xF0, 0x80, 0x80]]).getD d.val []

/-- Program load (70_reset_and_hazards.md R192, R193): an image of at most 3584 bytes is accepted, byte `k` goes
to `MEM[0x200 + k]`, and nothing else of the reset state changes; a larger image is rejected. -/
def Obligations.BootLoadsTheImage : Prop :=
  ∀ image : List Byte,
    (image.length ≤ 3584 → ∃ s, State.boot image = some s ∧
      OnlyBytesChange 0x200 image.length State.reset s ∧
      ∀ (k : Nat) (h : k < image.length), Memory.read s.mem (BitVec.ofNat 12 (0x200 + k)) = image[k]) ∧
    (3584 < image.length → State.boot image = none)

/-- The timers (60_exceptions.md R179, 70_reset_and_hazards.md R195): in a cycle that raises no fault each timer
ends one below the value its handler left, floored at 0; only `LD DT, Vx` and `LD ST, Vx` load one. -/
def Obligations.TimersTickOncePerCycle : Prop :=
  ∀ s t : State, s.fault = .running → step s = .next t → t.fault = .running →
    (∀ x, decode (fetchWord s) = .ldDtVx x → TickedFrom (s.reg x) t.dt) ∧
    ((∀ x, decode (fetchWord s) ≠ .ldDtVx x) → TickedFrom s.dt t.dt) ∧
    (∀ x, decode (fetchWord s) = .ldStVx x → TickedFrom (s.reg x) t.st) ∧
    ((∀ x, decode (fetchWord s) ≠ .ldStVx x) → TickedFrom s.st t.st)

/-- Faults are precise (60_exceptions.md R170, R176): after a cycle that faults, everything but `FAULT` and
`OPCODE` is as before the cycle, `pc` is at the faulting instruction, and the cause is the one of R170. Read from
the spec by inference: `OPCODE` holds the fetched word (10_state.md R32, D28, 40_cycle_and_dispatch.md R90; log
entry 5), and `keys` and the model's own `keyInput` are as before (R90; log entries 1 and 6). -/
def Obligations.FaultsArePrecise : Prop :=
  ∀ s t : State, s.fault = .running → step s = .next t → t.fault ≠ .running →
    t = { s with fault := t.fault, opcode := fetchWord s } ∧
    ((t.fault = .stackOverflow ∧ s.sp.val = 16 ∧ ∃ nnn, decode (fetchWord s) = .call nnn) ∨
     (t.fault = .stackUnderflow ∧ s.sp.val = 0 ∧ decode (fetchWord s) = .ret))

/-- The two faults are taken (60_exceptions.md R171, R172): `CALL` with 16 live entries and `RET` with none each
take the fault of their name and leave everything else but `OPCODE` alone, the timers too. Read from the spec by
inference: `OPCODE` holds the fetched word (10_state.md R32, D28, 40_cycle_and_dispatch.md R90; log entry 5), and
`keys` and the model's own `keyInput` are as before (R90; log entries 1 and 6). -/
def Obligations.StackBoundsFault : Prop :=
  ∀ s : State, s.fault = .running →
    (∀ nnn, decode (fetchWord s) = .call nnn → s.sp.val = 16 →
      step s = .next { s with fault := .stackOverflow, opcode := fetchWord s }) ∧
    (decode (fetchWord s) = .ret → s.sp.val = 0 →
      step s = .next { s with fault := .stackUnderflow, opcode := fetchWord s })

/-! ## Whole-machine rules: who writes what -/

/-- Only `CALL` and `RET` touch the call stack, `SP` and `FAULT` (10_state.md R25, R33). -/
def Obligations.OnlyCallAndRetTouchTheStack : Prop :=
  ∀ (i : Instr) (s t : State), exec i s = .next t → (∀ nnn, i ≠ .call nnn) → i ≠ .ret →
    t.stack = s.stack ∧ t.sp = s.sp ∧ t.fault = s.fault

/-- Only `CLS` and `DRW` write the framebuffer (10_state.md R29), and only `LD B, Vx` and `LD [I], Vx` write memory
(20_memory.md R55): with any other instruction every byte reads as before. -/
def Obligations.WhoWritesMemoryAndFramebuffer : Prop :=
  ∀ (i : Instr) (s t : State), exec i s = .next t →
    (i ≠ .cls → (∀ x y n, i ≠ .drw x y n) → t.fb = s.fb) ∧
    ((∀ x, i ≠ .ldB x) → (∀ x, i ≠ .storeRegs x) → ∀ a, Memory.read t.mem a = Memory.read s.mem a)

/-- Only `LD I, addr`, `ADD I, Vx` and `LD F, Vx` write `I` (10_state.md R23), and only `LD DT, Vx` and
`LD ST, Vx` write a timer in their handler (10_state.md R26, R27). -/
def Obligations.WhoWritesAddressRegisterAndTimers : Prop :=
  ∀ (i : Instr) (s t : State), exec i s = .next t →
    ((∀ nnn, i ≠ .ldI nnn) → (∀ x, i ≠ .addI x) → (∀ x, i ≠ .ldF x) → t.i = s.i) ∧
    ((∀ x, i ≠ .ldDtVx x) → t.dt = s.dt) ∧ ((∀ x, i ≠ .ldStVx x) → t.st = s.st)

/-- No instruction writes `KEYS`, and only `RND` advances `RNG` (10_state.md R30, R31). (`keyInput` is the
model's own field, log entry 1.) -/
def Obligations.KeysAreNeverWrittenAndOnlyRndDraws : Prop :=
  ∀ (i : Instr) (s t : State), exec i s = .next t →
    t.keys = s.keys ∧ t.keyInput = s.keyInput ∧ t.opcode = s.opcode ∧
    ((∀ x kk, i ≠ .rnd x kk) → t.rng = s.rng)

/-- The register frame of all instructions (10_state.md R22, 42_alu.md R132): a register changes only if the
instruction names it as its destination, or is `VF` and the instruction is one of the six that write a flag. -/
def Obligations.RegisterFrameOfEveryInstruction : Prop :=
  ∀ (i : Instr) (s t : State), exec i s = .next t →
    ∀ r, ¬ NamesAsDestination i r → ¬ (WritesFlag i ∧ r = vF) → t.reg r = s.reg r

/-- A flag-writing instruction writes all of `VF` with exactly 0 or 1, unless `VF` is its destination `Vx`
(10_state.md R22; with `x` = 15 the result lands last, which is the spec's decision D6, log entry 8). -/
def Obligations.FlagIsZeroOrOne : Prop :=
  ∀ (i : Instr) (s t : State), exec i s = .next t → WritesFlag i → ¬ NamesAsDestination i vF →
    t.reg vF = 0 ∨ t.reg vF = 1

/-- Every instruction but the ones R24 lists leaves `pc` at the next instruction (10_state.md R24). -/
def Obligations.OtherInstructionsLeavePc : Prop :=
  ∀ (i : Instr) (s t : State), exec i s = .next t → ¬ WritesPc i → t.pc = s.pc

/-! ## The no-op -/

/-- The no-op (40_cycle_and_dispatch.md R95, with R90 and R93): each of the four handlers changes no state, and the
cycle around one still advances `pc` by 2 and performs the timer step, changing nothing else of the core; 0x0000
is none. The model's own: four constructors for the one no-op (log entry 13), and the key vector the cycle takes
from `keyInput` (log entry 1); `OPCODE` keeps the fetched word (log entry 5). -/
def Obligations.NoOpOnlyAdvancesAndTicks : Prop :=
  (decode 0x0000).isNop = false ∧
  (∀ s, exec .nop0 s = .next s ∧ exec .nop8 s = .next s ∧ exec .nopE s = .next s ∧ exec .nopF s = .next s) ∧
  ∀ s : State, s.fault = .running → (decode (fetchWord s)).isNop = true →
    ∃ t, step s = .next t ∧ TickedFrom s.dt t.dt ∧ TickedFrom s.st t.st ∧
      t = { s with
        pc := s.pc + 2, dt := t.dt, st := t.st
        opcode := fetchWord s, keys := s.keyInput.headD s.keys, keyInput := s.keyInput.tail }

/-! ## Register load, arithmetic and logic -/

/-- `LD Vx, byte` (42_alu.md R120): 6xkk loads `kk`, any value, into any register, `VF` too. -/
def Obligations.LoadImmediate : Prop :=
  (∀ w : Word, topNibble w = 0x6 → decode w = .ldByte (fieldX w) (fieldKk w)) ∧
  ∀ (x : RegIdx) (kk : Byte) (s : State), ∃ t, exec (.ldByte x kk) s = .next t ∧
    OnlyRegistersChange [x] s t ∧ t.reg x = kk

/-- `LD Vx, Vy` (42_alu.md R122): 8xy0 copies `V[y]` into `V[x]`. -/
def Obligations.MoveRegister : Prop :=
  (∀ w : Word, topNibble w = 0x8 → lowNibble w = 0x0 → decode w = .ldReg (fieldX w) (fieldY w)) ∧
  ∀ (x y : RegIdx) (s : State), ∃ t, exec (.ldReg x y) s = .next t ∧
    OnlyRegistersChange [x] s t ∧ t.reg x = s.reg y

/-- `ADD Vx, byte` (42_alu.md R121, R132): modulo 256, and no flag (the spec's decision D7). -/
def Obligations.AddImmediateWritesNoFlag : Prop :=
  ∀ (x : RegIdx) (kk : Byte) (s : State), ∃ t, exec (.addByte x kk) s = .next t ∧
    OnlyRegistersChange [x] s t ∧ (t.reg x).toNat = ((s.reg x).toNat + kk.toNat) % 256

/-- `OR`, `AND`, `XOR` (42_alu.md R123 to R125, R132): bit by bit, and no flag (the spec's decision D7). -/
def Obligations.LogicalOperations : Prop :=
  ∀ (x y : RegIdx) (s : State),
    (∃ t, exec (.orReg x y) s = .next t ∧ OnlyRegistersChange [x] s t ∧
      ∀ k, (t.reg x).getLsbD k = ((s.reg x).getLsbD k || (s.reg y).getLsbD k)) ∧
    (∃ t, exec (.andReg x y) s = .next t ∧ OnlyRegistersChange [x] s t ∧
      ∀ k, (t.reg x).getLsbD k = ((s.reg x).getLsbD k && (s.reg y).getLsbD k)) ∧
    (∃ t, exec (.xorReg x y) s = .next t ∧ OnlyRegistersChange [x] s t ∧
      ∀ k, (t.reg x).getLsbD k = ((s.reg x).getLsbD k != (s.reg y).getLsbD k))

/-- `ADD Vx, Vy` (42_alu.md R126): the sum modulo 256, and the carry of the 9-bit sum in `VF`; with `x` = 15 the
sum is what `VF` holds (the spec's decision D6, log entry 8). -/
def Obligations.AddSetsCarry : Prop :=
  ∀ (x y : RegIdx) (s : State), ∃ t, exec (.addReg x y) s = .next t ∧
    OnlyRegistersChange [x, vF] s t ∧
    (t.reg x).toNat = ((s.reg x).toNat + (s.reg y).toNat) % 256 ∧
    (x ≠ vF → t.reg vF = if 255 < (s.reg x).toNat + (s.reg y).toNat then 1 else 0)

/-- `SUB Vx, Vy` and `SUBN Vx, Vy` (42_alu.md R127, R129): the difference modulo 256, and in `VF` whether no
borrow occurred; with `x` = 15 the difference is what `VF` holds (the spec's decisions D6, D26, log entry 8). -/
def Obligations.SubtractSetsNoBorrow : Prop :=
  ∀ (x y : RegIdx) (s : State),
    (∃ t, exec (.subReg x y) s = .next t ∧ OnlyRegistersChange [x, vF] s t ∧
      (t.reg x).toNat = ((s.reg x).toNat + 256 - (s.reg y).toNat) % 256 ∧
      (x ≠ vF → t.reg vF = if (s.reg y).toNat ≤ (s.reg x).toNat then 1 else 0)) ∧
    (∃ t, exec (.subnReg x y) s = .next t ∧ OnlyRegistersChange [x, vF] s t ∧
      (t.reg x).toNat = ((s.reg y).toNat + 256 - (s.reg x).toNat) % 256 ∧
      (x ≠ vF → t.reg vF = if (s.reg x).toNat ≤ (s.reg y).toNat then 1 else 0))

/-- `SHR Vx` and `SHL Vx` (42_alu.md R128, R130): one place, in place, a zero enters, and `VF` takes the bit that
left the original value; with `x` = 15 the result is what `VF` holds (the spec's decisions D6, D8, log entry 8). -/
def Obligations.ShiftsDeliverTheBitThatLeft : Prop :=
  ∀ (x : RegIdx) (s : State),
    (∃ t, exec (.shr x) s = .next t ∧ OnlyRegistersChange [x, vF] s t ∧
      (t.reg x).toNat = (s.reg x).toNat / 2 ∧
      (x ≠ vF → (t.reg vF).toNat = (s.reg x).toNat % 2)) ∧
    (∃ t, exec (.shl x) s = .next t ∧ OnlyRegistersChange [x, vF] s t ∧
      (t.reg x).toNat = (2 * (s.reg x).toNat) % 256 ∧
      (x ≠ vF → (t.reg vF).toNat = (s.reg x).toNat / 128))

/-! ## Control flow -/

/-- `JP addr` (41_control_flow.md R101): 1nnn sets `pc` to `nnn`, any value, and changes nothing else. -/
def Obligations.JumpSetsPc : Prop :=
  (∀ w : Word, topNibble w = 0x1 → decode w = .jp (fieldNnn w)) ∧
  ∀ (nnn : Addr) (s : State), ∃ t, exec (.jp nnn) s = .next t ∧ OnlyPcChanges s t ∧ t.pc = nnn

/-- `JP V0, addr` (41_control_flow.md R107): `pc` takes `nnn + V[0]` modulo 4096 (the spec's decisions D2, D10). -/
def Obligations.JumpWithOffsetWraps : Prop :=
  ∀ (nnn : Addr) (s : State), ∃ t, exec (.jpV0 nnn) s = .next t ∧ OnlyPcChanges s t ∧
    t.pc.toNat = (nnn.toNat + (s.reg 0).toNat) % 4096

/-- `CALL addr` with room on the stack (41_control_flow.md R102): `STACK[SP]` takes the address of the next
instruction, `SP` grows by one, `pc` takes `nnn`, and nothing else changes. -/
def Obligations.CallPushesAndJumps : Prop :=
  ∀ (nnn : Addr) (s : State), s.sp.val < 16 → ∃ t, exec (.call nnn) s = .next t ∧
    t = { s with stack := t.stack, sp := t.sp, pc := t.pc } ∧
    t.pc = nnn ∧ t.sp.val = s.sp.val + 1 ∧
    ∀ k : Fin 16, t.stack[k] = if k.val = s.sp.val then s.pc else s.stack[k]

/-- `RET` with a live entry (41_control_flow.md R100, 10_state.md R25): `SP` falls by one, `pc` takes the entry
it now addresses, and nothing else changes, the entry itself included. -/
def Obligations.ReturnPopsAndJumps : Prop :=
  ∀ s : State, 0 < s.sp.val → ∃ t, exec .ret s = .next t ∧
    t = { s with sp := t.sp, pc := t.pc } ∧ t.sp.val + 1 = s.sp.val ∧
    ∀ k : Fin 16, k.val = t.sp.val → t.pc = s.stack[k]

/-- `CALL addr` then `RET` (the source's property S7, 41_control_flow.md R100): two cycles come back to the
instruction after the `CALL`, with the stack pointer as before. -/
def Obligations.CallThenReturnComesBack : Prop :=
  ∀ (s t : State) (nnn : Addr), s.fault = .running → s.sp.val < 16 →
    decode (fetchWord s) = .call nnn → step s = .next t → decode (fetchWord t) = .ret →
    ∃ u, step t = .next u ∧ u.pc = s.pc + 2 ∧ u.sp = s.sp ∧ u.v = s.v ∧ u.mem = s.mem ∧ u.fault = .running

/-- `SE Vx, byte` and `SNE Vx, byte` (41_control_flow.md R103, R104): 3xkk skips one instruction when `V[x]`
equals `kk`, 4xkk when it does not, and nothing but `pc` changes. -/
def Obligations.SkipOnByte : Prop :=
  (∀ w : Word, (topNibble w = 0x3 → decode w = .seByte (fieldX w) (fieldKk w)) ∧
    (topNibble w = 0x4 → decode w = .sneByte (fieldX w) (fieldKk w))) ∧
  ∀ (x : RegIdx) (kk : Byte) (s : State),
    (∃ t, exec (.seByte x kk) s = .next t ∧ OnlyPcChanges s t ∧
      t.pc = if (s.reg x).toNat = kk.toNat then s.pc + 2 else s.pc) ∧
    (∃ t, exec (.sneByte x kk) s = .next t ∧ OnlyPcChanges s t ∧
      t.pc = if (s.reg x).toNat = kk.toNat then s.pc else s.pc + 2)

/-- `SE Vx, Vy` and `SNE Vx, Vy` (41_control_flow.md R105, R106): any word of nibble 5 skips when the registers
are equal, any word of nibble 9 when they differ, and nothing but `pc` changes. -/
def Obligations.SkipOnRegisters : Prop :=
  (∀ w : Word, (topNibble w = 0x5 → decode w = .seReg (fieldX w) (fieldY w)) ∧
    (topNibble w = 0x9 → decode w = .sneReg (fieldX w) (fieldY w))) ∧
  ∀ (x y : RegIdx) (s : State),
    (∃ t, exec (.seReg x y) s = .next t ∧ OnlyPcChanges s t ∧
      t.pc = if (s.reg x).toNat = (s.reg y).toNat then s.pc + 2 else s.pc) ∧
    (∃ t, exec (.sneReg x y) s = .next t ∧ OnlyPcChanges s t ∧
      t.pc = if (s.reg x).toNat = (s.reg y).toNat then s.pc else s.pc + 2)

/-- A taken skip leaves `pc` 4 beyond the instruction's own address after its one cycle, an untaken one 2, for
each of the six skip instructions (41_control_flow.md R108, the source's property S9). The keys are those sampled
in the cycle (log entry 1). -/
def Obligations.SkipAdvancesFourInAll : Prop :=
  ∀ (s t : State) (x y : RegIdx) (kk : Byte), s.fault = .running → step s = .next t →
    (decode (fetchWord s) = .seByte x kk → t.pc = if s.reg x = kk then s.pc + 4 else s.pc + 2) ∧
    (decode (fetchWord s) = .sneByte x kk → t.pc = if s.reg x ≠ kk then s.pc + 4 else s.pc + 2) ∧
    (decode (fetchWord s) = .seReg x y → t.pc = if s.reg x = s.reg y then s.pc + 4 else s.pc + 2) ∧
    (decode (fetchWord s) = .sneReg x y → t.pc = if s.reg x ≠ s.reg y then s.pc + 4 else s.pc + 2) ∧
    (decode (fetchWord s) = .skp x → t.pc =
      if (s.keyInput.headD s.keys).getLsbD ((s.reg x).toNat % 16) = true then s.pc + 4 else s.pc + 2) ∧
    (decode (fetchWord s) = .sknp x → t.pc =
      if (s.keyInput.headD s.keys).getLsbD ((s.reg x).toNat % 16) = true then s.pc + 2 else s.pc + 4)

/-! ## Address register and memory -/

/-- `LD I, addr` (43_index_memory.md R140): Annn sets `I` to `nnn` and changes nothing else. -/
def Obligations.LoadAddressRegister : Prop :=
  (∀ w : Word, topNibble w = 0xA → decode w = .ldI (fieldNnn w)) ∧
  ∀ (nnn : Addr) (s : State), ∃ t, exec (.ldI nnn) s = .next t ∧ OnlyIChanges s t ∧ t.i = nnn

/-- `ADD I, Vx` and `LD F, Vx` (43_index_memory.md R141, R142): `I` takes the sum modulo 4096, or the address of
the glyph for the full byte, and nothing else changes, `VF` included (the spec's decisions D2, D7, D11, D12). -/
def Obligations.AddressRegisterArithmetic : Prop :=
  ∀ (x : RegIdx) (s : State),
    (∃ t, exec (.addI x) s = .next t ∧ OnlyIChanges s t ∧
      t.i.toNat = (s.i.toNat + (s.reg x).toNat) % 4096) ∧
    (∃ t, exec (.ldF x) s = .next t ∧ OnlyIChanges s t ∧
      t.i.toNat = 0x050 + 5 * (s.reg x).toNat)

/-- `LD B, Vx` (43_index_memory.md R143, R146): the hundreds, tens and ones of `V[x]` to the bytes at `I`, `I + 1`,
`I + 2` (modulo 4096), and no other byte and no other state changes. Memory is canonical, as every cycle
keeps it. -/
def Obligations.StoreDecimalDigits : Prop :=
  ∀ (x : RegIdx) (s : State), Memory.wf s.mem = true → ∃ t, exec (.ldB x) s = .next t ∧
    OnlyBytesChange s.i 3 s t ∧
    (Memory.read t.mem s.i).toNat = (s.reg x).toNat / 100 ∧
    (Memory.read t.mem (s.i + 1)).toNat = (s.reg x).toNat / 10 % 10 ∧
    (Memory.read t.mem (s.i + 2)).toNat = (s.reg x).toNat % 10

/-- `LD [I], Vx` (43_index_memory.md R144, R146): `V[k]` to the byte at `I + k` (modulo 4096) for every `k` up to
and including `x`; no other byte and no other state changes, `I` included. -/
def Obligations.StoreRegisterBlock : Prop :=
  ∀ (x : RegIdx) (s : State), Memory.wf s.mem = true → ∃ t, exec (.storeRegs x) s = .next t ∧
    OnlyBytesChange s.i (x.val + 1) s t ∧
    ∀ k : RegIdx, k ≤ x → Memory.read t.mem (s.i + BitVec.ofNat 12 k.val) = s.reg k

/-- `LD Vx, [I]` (43_index_memory.md R145, R146): `V[k]` takes the byte at `I + k` (modulo 4096) for every `k` up
to and including `x`; no other register and no other state changes, `I` included. -/
def Obligations.LoadRegisterBlock : Prop :=
  ∀ (x : RegIdx) (s : State), ∃ t, exec (.loadRegs x) s = .next t ∧ t = { s with v := t.v } ∧
    ∀ k : RegIdx, t.reg k = if k ≤ x then Memory.read s.mem (s.i + BitVec.ofNat 12 k.val) else s.reg k

/-- A block stored and loaded back through the same `I` restores the registers: loading into any state with the
memory the store left and the same `I` gives `V[0]`..`V[x]` back (43_index_memory.md R144, R145). -/
def Obligations.StoredBlockLoadsBack : Prop :=
  ∀ (x : RegIdx) (s t u u' : State), Memory.wf s.mem = true → exec (.storeRegs x) s = .next t →
    u.mem = t.mem → u.i = t.i → exec (.loadRegs x) u = .next u' →
    ∀ k : RegIdx, k ≤ x → u'.reg k = s.reg k

/-- Self-modifying code (20_memory.md R63): a block store that reaches the two bytes after itself is seen by the
very next fetch. -/
def Obligations.StoredWordIsFetchedNext : Prop :=
  ∀ (x : RegIdx) (s t : State), Memory.wf s.mem = true → s.fault = .running →
    decode (fetchWord s) = .storeRegs x → 1 ≤ x.val → s.i = s.pc + 2 → step s = .next t →
    fetchWord t = wordOfBytes (s.reg 0) (s.reg 1)

/-! ## Display -/

/-- `CLS` (44_graphics.md R150): any word of nibble 0 with low nibble 0 turns every pixel off and changes nothing
else; `VF` is not written. -/
def Obligations.ClearTurnsEveryPixelOff : Prop :=
  (∀ w : Word, topNibble w = 0x0 → lowNibble w = 0x0 → decode w = .cls) ∧
  ∀ s : State, ∃ t, exec .cls s = .next t ∧ t = { s with fb := t.fb } ∧
    ∀ yy xx, Framebuffer.pixel t.fb yy xx = false

/-- `DRW Vx, Vy, n` (44_graphics.md R151): the pixel loop equals its closed form: exactly the pixels a 1 bit of
the sprite falls on are inverted, wrapping in both directions. -/
def Obligations.DrawInvertsExactlyTheCoveredPixels : Prop :=
  ∀ (x y : RegIdx) (n : Fin 16) (s : State), ∃ t, exec (.drw x y n) s = .next t ∧
    ∀ yy xx, (SpriteCovers s x y n yy xx → Framebuffer.pixel t.fb yy xx = !Framebuffer.pixel s.fb yy xx) ∧
      (¬ SpriteCovers s x y n yy xx → Framebuffer.pixel t.fb yy xx = Framebuffer.pixel s.fb yy xx)

/-- `DRW Vx, Vy, n` (44_graphics.md R151): `VF` is 1 if any pixel went from on to off, else 0, and nothing but `VF`
and the framebuffer changes: memory, `I` and every other register keep their value. -/
def Obligations.DrawFlagIsCollision : Prop :=
  ∀ (x y : RegIdx) (n : Fin 16) (s : State), ∃ t, exec (.drw x y n) s = .next t ∧
    t = { s with v := t.v, fb := t.fb } ∧ (∀ r, r ≠ vF → t.reg r = s.reg r) ∧
    ((∃ yy xx, Framebuffer.pixel s.fb yy xx = true ∧ Framebuffer.pixel t.fb yy xx = false) → t.reg vF = 1) ∧
    ((¬ ∃ yy xx, Framebuffer.pixel s.fb yy xx = true ∧ Framebuffer.pixel t.fb yy xx = false) → t.reg vF = 0)

/-- Drawing a sprite twice at the same place restores the framebuffer; the second flag is 1 exactly when a pixel
the sprite covers was off before (44_graphics.md R151, the source's property S6). The spec's sentence on the
flag holds as it stands when those pixels were off, as in S6; log entry 12. -/
def Obligations.DrawingTwiceRestores : Prop :=
  ∀ (x y : RegIdx) (n : Fin 16) (s t u : State), exec (.drw x y n) s = .next t →
    t.reg x = s.reg x → t.reg y = s.reg y → exec (.drw x y n) t = .next u →
    u.fb = s.fb ∧
    (u.reg vF = 1 ↔ ∃ yy xx, SpriteCovers s x y n yy xx ∧ Framebuffer.pixel s.fb yy xx = false)

/-- The `fb` port (10_state.md R29): word `yy * 64 + xx` reads 0xFFFFFFFF when pixel (`xx`, `yy`) is on and
0x00000000 when it is off (the spec's decision D14); `sound` carries `ST`, `fault` the code of `FAULT`. -/
def Obligations.OutputPorts : Prop :=
  ∀ s : State,
    (∀ (yy : Fin 32) (xx : Fin 64), s.fbPort ⟨yy.val * 64 + xx.val, by omega⟩ =
      if Framebuffer.pixel s.fb yy xx then 0xFFFFFFFF else 0x00000000) ∧
    s.soundPort = s.st ∧
    (s.fault = .running → s.faultPort = 0) ∧ (s.fault = .stackOverflow → s.faultPort = 1) ∧
    (s.fault = .stackUnderflow → s.faultPort = 2)

/-! ## Keypad, timers, random -/

/-- `SKP Vx` and `SKNP Vx` (45_keypad_timers_random.md R160, R161): the key is the low four bits of `V[x]` (the
spec's decision D15); nothing but `pc` changes. -/
def Obligations.SkipOnKey : Prop :=
  ∀ (x : RegIdx) (s : State),
    (∃ t, exec (.skp x) s = .next t ∧ OnlyPcChanges s t ∧
      t.pc = if s.keys.getLsbD ((s.reg x).toNat % 16) = true then s.pc + 2 else s.pc) ∧
    (∃ t, exec (.sknp x) s = .next t ∧ OnlyPcChanges s t ∧
      t.pc = if s.keys.getLsbD ((s.reg x).toNat % 16) = true then s.pc else s.pc + 2)

/-- `LD Vx, K` with a key down (45_keypad_timers_random.md R162): `V[x]` takes the number of the lowest pressed
key (the spec's decision D16), `pc` stays at the next instruction, nothing else changes. -/
def Obligations.KeyWaitLoadsTheLowestKey : Prop :=
  ∀ (x : RegIdx) (s : State) (k : Fin 16), s.keys.getLsbD k.val = true →
    (∀ j : Fin 16, j < k → s.keys.getLsbD j.val = false) →
    ∃ t, exec (.ldVxK x) s = .next t ∧ OnlyRegistersChange [x] s t ∧ (t.reg x).toNat = k.val

/-- `LD Vx, K` with no key down (45_keypad_timers_random.md R162): the cycle leaves `pc` at this instruction and
changes nothing but the timers, which keep counting, and what the cycle takes in: the keys sampled from the
model's own `keyInput` (log entry 1) and the word kept in the transient `OPCODE` (R32, log entry 5). -/
def Obligations.KeyWaitStandsStill : Prop :=
  ∀ (x : RegIdx) (s : State), s.fault = .running → decode (fetchWord s) = .ldVxK x →
    s.keyInput.headD s.keys = 0 → ∃ t, step s = .next t ∧
      TickedFrom s.dt t.dt ∧ TickedFrom s.st t.st ∧
      t = { s with
        dt := t.dt, st := t.st
        opcode := fetchWord s, keys := 0, keyInput := s.keyInput.tail }

/-- `LD Vx, DT` (45_keypad_timers_random.md R163): Fx07 loads `DT` as it is before this cycle's timer step. -/
def Obligations.ReadDelayTimer : Prop :=
  (∀ w : Word, topNibble w = 0xF → fieldKk w = 0x07 → decode w = .ldVxDt (fieldX w)) ∧
  (∀ (x : RegIdx) (s : State), ∃ t, exec (.ldVxDt x) s = .next t ∧
    OnlyRegistersChange [x] s t ∧ t.reg x = s.dt) ∧
  ∀ (x : RegIdx) (s t : State), s.fault = .running → decode (fetchWord s) = .ldVxDt x →
    step s = .next t → t.reg x = s.dt ∧ TickedFrom s.dt t.dt

/-- `LD DT, Vx` and `LD ST, Vx` (45_keypad_timers_random.md R164, R165): the handler loads the timer and changes
nothing else. (The tick of the same cycle is `TimersTickOncePerCycle`.) -/
def Obligations.LoadTimers : Prop :=
  ∀ (x : RegIdx) (s : State),
    (∃ t, exec (.ldDtVx x) s = .next t ∧ t = { s with dt := t.dt } ∧ t.dt = s.reg x) ∧
    (∃ t, exec (.ldStVx x) s = .next t ∧ t = { s with st := t.st } ∧ t.st = s.reg x)

/-- `RND Vx, byte` (45_keypad_timers_random.md R166): `V[x]` takes the drawn byte under the mask, one byte is drawn
whatever the mask is, and nothing else changes. The byte is free; the counter is the model's (log entry 3). -/
def Obligations.RandomByteUnderMask : Prop :=
  ∀ (x : RegIdx) (kk : Byte) (s : State), ∃ t, exec (.rnd x kk) s = .next t ∧
    t = { s with v := t.v, rng := t.rng } ∧ (∀ r, r ≠ x → t.reg r = s.reg r) ∧
    t.reg x = Config.randomByte s.rng &&& kk ∧ t.reg x &&& ~~~kk = 0 ∧ t.rng = s.rng + 1

/-! ## Runs -/

/-- Standing still (40_cycle_and_dispatch.md R98): with a `JP` to its own address at `pc`, any number of cycles
leaves all state of the core unchanged except `DT` and `ST`, which count down to 0 and stay. The key vectors
used up are the model's own (log entry 1), and `OPCODE` is transient (R32, log entry 5). -/
def Obligations.JumpToSelfStandsStill : Prop :=
  ∀ (s : State) (k : Nat), s.fault = .running → decode (fetchWord s) = .jp s.pc →
    ∃ t, Sys2Proof.core.run k s = .next t ∧
      t = { s with
        dt := t.dt, st := t.st
        opcode := t.opcode, keys := t.keys, keyInput := t.keyInput } ∧
      t.dt.toNat = s.dt.toNat - k ∧ t.st.toNat = s.st.toNat - k
end

