-- ==== Sys2Proof/Laws/Decode.lean ====
section
/-!
SUPPORT. The fields of a word the encoder builds, the bytes of a word, and what a mask of the opcode map
looks at.
-/

namespace Sys2Proof

/-! ## Bits of the formats -/

theorem formatNnn_bit (t : BitVec 4) (nnn : Addr) (k : Nat) :
    (formatNnn t nnn).getLsbD k = if k < 12 then nnn.getLsbD k else t.getLsbD (k - 12) :=
  BitVec.getLsbD_append

theorem formatXkk_bit (t : BitVec 4) (x : RegIdx) (kk : Byte) (k : Nat) :
    (formatXkk t x kk).getLsbD k =
      if k < 8 then kk.getLsbD k else if k < 12 then (BitVec.ofFin x : BitVec 4).getLsbD (k - 8)
      else t.getLsbD (k - 12) := by
  unfold formatXkk
  rw [show (t ++ (BitVec.ofFin x : BitVec 4) ++ kk).getLsbD k = _ from BitVec.getLsbD_append,
    BitVec.getLsbD_append]
  split_ifs <;> first | rfl | omega

theorem formatXyn_bit (t : BitVec 4) (x y n : Fin 16) (k : Nat) :
    (formatXyn t x y n).getLsbD k =
      if k < 4 then (BitVec.ofFin n : BitVec 4).getLsbD k
      else if k < 8 then (BitVec.ofFin y : BitVec 4).getLsbD (k - 4)
      else if k < 12 then (BitVec.ofFin x : BitVec 4).getLsbD (k - 8)
      else t.getLsbD (k - 12) := by
  unfold formatXyn
  rw [show (t ++ (BitVec.ofFin x : BitVec 4) ++ (BitVec.ofFin y : BitVec 4) ++
      (BitVec.ofFin n : BitVec 4)).getLsbD k = _ from BitVec.getLsbD_append,
    BitVec.getLsbD_append, BitVec.getLsbD_append]
  split_ifs <;> first | rfl | omega

/-! ## Fields of the formats -/

@[simp] theorem topNibble_formatNnn (t : BitVec 4) (nnn : Addr) : topNibble (formatNnn t nnn) = t := by
  apply BitVec.eq_of_getLsbD_eq; intro k hk; simp [topNibble, formatNnn_bit, hk]

@[simp] theorem fieldNnn_formatNnn (t : BitVec 4) (nnn : Addr) : fieldNnn (formatNnn t nnn) = nnn := by
  apply BitVec.eq_of_getLsbD_eq; intro k hk; simp [fieldNnn, formatNnn_bit, hk]

@[simp] theorem topNibble_formatXkk (t : BitVec 4) (x : RegIdx) (kk : Byte) :
    topNibble (formatXkk t x kk) = t := by
  apply BitVec.eq_of_getLsbD_eq; intro k hk
  rw [topNibble, BitVec.getLsbD_extractLsb', formatXkk_bit, if_neg (by omega), if_neg (by omega)]
  simp [hk]

theorem fieldX_eq_of_bits {w : Word} {x : RegIdx}
    (h : ∀ k < 4, w.getLsbD (8 + k) = (BitVec.ofFin x : BitVec 4).getLsbD k) : fieldX w = x := by
  have : w.extractLsb' 8 4 = (BitVec.ofFin x : BitVec 4) := by
    apply BitVec.eq_of_getLsbD_eq; intro k hk; simpa [hk] using h k hk
  simp [fieldX, this]

theorem fieldY_eq_of_bits {w : Word} {y : RegIdx}
    (h : ∀ k < 4, w.getLsbD (4 + k) = (BitVec.ofFin y : BitVec 4).getLsbD k) : fieldY w = y := by
  have : w.extractLsb' 4 4 = (BitVec.ofFin y : BitVec 4) := by
    apply BitVec.eq_of_getLsbD_eq; intro k hk; simpa [hk] using h k hk
  simp [fieldY, this]

@[simp] theorem fieldX_formatXkk (t : BitVec 4) (x : RegIdx) (kk : Byte) : fieldX (formatXkk t x kk) = x := by
  apply fieldX_eq_of_bits; intro k hk
  rw [formatXkk_bit, if_neg (by omega), if_pos (by omega), Nat.add_sub_cancel_left]

@[simp] theorem fieldKk_formatXkk (t : BitVec 4) (x : RegIdx) (kk : Byte) :
    fieldKk (formatXkk t x kk) = kk := by
  apply BitVec.eq_of_getLsbD_eq; intro k hk; simp [fieldKk, formatXkk_bit, hk]

theorem lowNibble_formatXkk (t : BitVec 4) (x : RegIdx) (kk : Byte) :
    lowNibble (formatXkk t x kk) = kk.extractLsb' 0 4 := by
  apply BitVec.eq_of_getLsbD_eq; intro k hk
  simp [lowNibble, formatXkk_bit, hk, show k < 8 by omega]

@[simp] theorem topNibble_formatXyn (t : BitVec 4) (x y n : Fin 16) : topNibble (formatXyn t x y n) = t := by
  apply BitVec.eq_of_getLsbD_eq; intro k hk
  rw [topNibble, BitVec.getLsbD_extractLsb', formatXyn_bit, if_neg (by omega), if_neg (by omega),
    if_neg (by omega)]
  simp [hk]

@[simp] theorem fieldX_formatXyn (t : BitVec 4) (x y n : Fin 16) : fieldX (formatXyn t x y n) = x := by
  apply fieldX_eq_of_bits; intro k hk
  rw [formatXyn_bit, if_neg (by omega), if_neg (by omega), if_pos (by omega), Nat.add_sub_cancel_left]

@[simp] theorem fieldY_formatXyn (t : BitVec 4) (x y n : Fin 16) : fieldY (formatXyn t x y n) = y := by
  apply fieldY_eq_of_bits; intro k hk
  rw [formatXyn_bit, if_neg (by omega), if_pos (by omega), Nat.add_sub_cancel_left]

@[simp] theorem lowNibble_formatXyn (t : BitVec 4) (x y n : Fin 16) :
    lowNibble (formatXyn t x y n) = BitVec.ofFin n := by
  apply BitVec.eq_of_getLsbD_eq; intro k hk; simp [lowNibble, formatXyn_bit, hk]

@[simp] theorem fieldN_formatXyn (t : BitVec 4) (x y n : Fin 16) : fieldN (formatXyn t x y n) = n := by
  have h := lowNibble_formatXyn t x y n
  simp only [lowNibble] at h
  simp [fieldN, h]

/-! ## Bytes of a word -/

@[simp] theorem highByte_wordOfBytes (high low : Byte) : highByte (wordOfBytes high low) = high := by
  apply BitVec.eq_of_getLsbD_eq; intro k hk
  rw [highByte, BitVec.getLsbD_extractLsb',
    show (wordOfBytes high low).getLsbD (8 + k) = _ from BitVec.getLsbD_append]
  simp [hk]

@[simp] theorem lowByte_wordOfBytes (high low : Byte) : lowByte (wordOfBytes high low) = low := by
  apply BitVec.eq_of_getLsbD_eq; intro k hk
  rw [lowByte, BitVec.getLsbD_extractLsb',
    show (wordOfBytes high low).getLsbD (0 + k) = _ from BitVec.getLsbD_append]
  simp [hk]

@[simp] theorem wordOfBytes_bytes (w : Word) : wordOfBytes (highByte w) (lowByte w) = w := by
  apply BitVec.eq_of_getLsbD_eq; intro k hk
  rw [show (wordOfBytes (highByte w) (lowByte w)).getLsbD k = _ from BitVec.getLsbD_append]
  split
  · simp [lowByte, *]
  · rw [highByte, BitVec.getLsbD_extractLsb']
    simp [show k - 8 < 8 by omega, show 8 + (k - 8) = k by omega]

/-- The decoder on the word of a table row: bits at and above `nbits` are 0. -/
theorem decodeTableWord_eq {nbits : Nat} (h : nbits ≤ 16) (w : Nat) :
    decodeTableWord nbits w = some (decode (BitVec.ofNat 16 (w % 2 ^ nbits))) := by
  simp [decodeTableWord, h, decodeBytes]

/-! ## What a mask looks at -/

/-- Mask F000 looks at the top nibble (30_encoding.md R74). -/
theorem and_F000_eq_iff (w : Word) (t : BitVec 4) : w &&& 0xF000#16 = t ++ 0#12 ↔ topNibble w = t := by
  constructor
  · intro h
    apply BitVec.eq_of_getLsbD_eq; intro k hk
    have h1 := congrArg (fun v : Word => v.getLsbD (12 + k)) h
    rw [show (t ++ 0#12 : Word).getLsbD (12 + k) = _ from BitVec.getLsbD_append] at h1
    have : (0xF000#16).getLsbD (12 + k) = true := by
      interval_cases k <;> rfl
    simpa [topNibble, hk, this] using h1
  · rintro rfl
    apply BitVec.eq_of_getLsbD_eq; intro k hk
    rw [show (topNibble w ++ 0#12 : Word).getLsbD k = _ from BitVec.getLsbD_append]
    interval_cases k <;> simp [topNibble]

/-- Mask F00F looks at the top and the low nibble (R75, R76, R77). -/
theorem and_F00F_eq_iff (w : Word) (t n : BitVec 4) :
    w &&& 0xF00F#16 = t ++ 0#8 ++ n ↔ topNibble w = t ∧ lowNibble w = n := by
  constructor
  · intro h
    have h1 : ∀ k, (w &&& 0xF00F#16).getLsbD k =
        if k < 4 then n.getLsbD k else (t ++ 0#8).getLsbD (k - 4) := by
      intro k; rw [h]; exact BitVec.getLsbD_append
    constructor <;> apply BitVec.eq_of_getLsbD_eq <;> intro k hk
    · have := h1 (12 + k)
      rw [if_neg (by omega), BitVec.getLsbD_append, if_neg (by omega)] at this
      interval_cases k <;> simpa [topNibble] using this
    · have := h1 k
      rw [if_pos hk] at this
      interval_cases k <;> simpa [lowNibble] using this
  · rintro ⟨rfl, rfl⟩
    apply BitVec.eq_of_getLsbD_eq; intro k hk
    rw [show (topNibble w ++ 0#8 ++ lowNibble w : Word).getLsbD k = _ from BitVec.getLsbD_append,
      BitVec.getLsbD_append]
    interval_cases k <;> simp [topNibble, lowNibble]

/-- Mask F0FF looks at the top nibble and the low byte (R78). -/
theorem and_F0FF_eq_iff (w : Word) (t : BitVec 4) (kk : Byte) :
    w &&& 0xF0FF#16 = t ++ 0#4 ++ kk ↔ topNibble w = t ∧ fieldKk w = kk := by
  constructor
  · intro h
    have h1 : ∀ k, (w &&& 0xF0FF#16).getLsbD k =
        if k < 8 then kk.getLsbD k else (t ++ 0#4).getLsbD (k - 8) := by
      intro k; rw [h]; exact BitVec.getLsbD_append
    constructor <;> apply BitVec.eq_of_getLsbD_eq <;> intro k hk
    · have := h1 (12 + k)
      rw [if_neg (by omega), BitVec.getLsbD_append, if_neg (by omega)] at this
      interval_cases k <;> simpa [topNibble] using this
    · have := h1 k
      rw [if_pos hk] at this
      interval_cases k <;> simpa [fieldKk] using this
  · rintro ⟨rfl, rfl⟩
    apply BitVec.eq_of_getLsbD_eq; intro k hk
    rw [show (topNibble w ++ 0#4 ++ fieldKk w : Word).getLsbD k = _ from BitVec.getLsbD_append,
      BitVec.getLsbD_append]
    interval_cases k <;> simp [topNibble, fieldKk]

end Sys2Proof
end

