-- ==== Sys2Proof/Laws/Graphics.lean ====
section
/-!
SUPPORT. The laws of the framebuffer: what a toggle and one sprite bit do to one pixel.
-/

namespace Sys2Proof.Machine

@[simp] theorem Framebuffer.pixel_clear (yy : Fin 32) (xx : Fin 64) :
    Framebuffer.pixel Framebuffer.clear yy xx = false := by
  simp [Framebuffer.pixel, Framebuffer.clear]

/-- A toggle inverts its pixel and leaves every other pixel alone. -/
theorem Framebuffer.pixel_toggle (fb : Framebuffer) (yy y' : Fin 32) (xx x' : Fin 64) :
    Framebuffer.pixel (Framebuffer.toggle fb yy xx) y' x' =
      (Framebuffer.pixel fb y' x' ^^ decide (y' = yy ∧ x' = xx)) := by
  simp only [Framebuffer.pixel, Framebuffer.toggle, Fin.getElem_fin, Vector.getElem_set]
  by_cases hy : y' = yy
  · subst hy
    by_cases hx : x' = xx
    · subst hx; simp
    · have : xx.val ≠ x'.val := fun e => hx (Fin.ext e.symm)
      simp [hx, Vector.getElem_set_ne, this]
  · have : yy.val ≠ y'.val := fun e => hy (Fin.ext e.symm)
    simp [hy, this]

/-- Framebuffers that read alike at every pixel are equal. -/
theorem Framebuffer.ext_pixel {fb fb' : Framebuffer}
    (h : ∀ yy xx, Framebuffer.pixel fb yy xx = Framebuffer.pixel fb' yy xx) : fb = fb' := by
  apply Vector.ext; intro yy hy
  apply Vector.ext; intro xx hx
  exact h ⟨yy, hy⟩ ⟨xx, hx⟩

/-- One sprite bit: it inverts its pixel when the bit is 1 and no other pixel ever. -/
theorem pixel_drawBit (xs ys b : Byte) (row col : Nat) (d : Drawing) (yy : Fin 32) (xx : Fin 64) :
    Framebuffer.pixel (drawBit xs ys b row d col).fb yy xx =
      (Framebuffer.pixel d.fb yy xx ^^
        decide (b.getLsbD (7 - col) = true ∧ yy = pixelRow ys row ∧ xx = pixelColumn xs col)) := by
  unfold drawBit
  split
  · simp [Framebuffer.pixel_toggle, *]
  · simp [*]

/-- One sprite bit collides when it is 1 and its pixel was on. -/
theorem collision_drawBit (xs ys b : Byte) (row col : Nat) (d : Drawing) :
    (drawBit xs ys b row d col).collision =
      (d.collision || (b.getLsbD (7 - col) && Framebuffer.pixel d.fb (pixelRow ys row) (pixelColumn xs col))) := by
  unfold drawBit
  split <;> simp [*]

end Sys2Proof.Machine
end

