-- ==== Sys2Proof/Laws/Memory.lean ====
section
/-!
SUPPORT. The laws of memory (20_memory.md R51, R60): a read after a write, every other cell, and that every
operation keeps the canonical form.
-/

namespace Sys2Proof.Machine

/-! ## Listed cells -/

/-- What a cell list reads as at a key: the listed byte, or the reset contents. -/
theorem lookup_consCell_self (k : Nat) (b : Byte) (rest : Memory) (h : Memory.lookup k rest = none) :
    (Memory.lookup k (Memory.consCell k b rest)).getD (resetByte k) = b := by
  unfold Memory.consCell
  split
  · simp [*]
  · simp [Memory.lookup]

theorem lookup_consCell_of_ne {k j : Nat} (b : Byte) (rest : Memory) (h : j ≠ k) :
    Memory.lookup j (Memory.consCell k b rest) = Memory.lookup j rest := by
  unfold Memory.consCell
  split
  · rfl
  · simp [Memory.lookup, h]

/-- An address below the first of a canonical list is not listed. -/
theorem lookup_eq_none_of_lt {m : Memory} {lowest k : Nat} (hm : Memory.canonicalFrom lowest m = true)
    (hk : k < lowest) : Memory.lookup k m = none := by
  induction m generalizing lowest with
  | nil => rfl
  | cons c rest ih =>
    obtain ⟨a, b⟩ := c
    simp only [Memory.canonicalFrom, Bool.and_eq_true, decide_eq_true_eq] at hm
    obtain ⟨⟨⟨hlo, -⟩, -⟩, hrest⟩ := hm
    rw [Memory.lookup, if_neg (by omega)]
    exact ih hrest (by omega)

theorem lookup_insertCell_of_ne {j k : Nat} (b : Byte) (m : Memory) (h : j ≠ k) :
    Memory.lookup j (Memory.insertCell k b m) = Memory.lookup j m := by
  induction m with
  | nil => exact lookup_consCell_of_ne b [] h
  | cons c rest ih =>
    obtain ⟨a, b'⟩ := c
    unfold Memory.insertCell
    split
    · exact lookup_consCell_of_ne b _ h
    · split
      · rename_i hka
        rw [lookup_consCell_of_ne b _ h, Memory.lookup, if_neg (by omega)]
      · simp only [Memory.lookup, ih]

theorem lookup_insertCell_self {m : Memory} {lowest : Nat} (k : Nat) (b : Byte)
    (hm : Memory.canonicalFrom lowest m = true) :
    (Memory.lookup k (Memory.insertCell k b m)).getD (resetByte k) = b := by
  induction m generalizing lowest with
  | nil => exact lookup_consCell_self k b [] rfl
  | cons c rest ih =>
    obtain ⟨a, b'⟩ := c
    have hm' := hm
    simp only [Memory.canonicalFrom, Bool.and_eq_true, decide_eq_true_eq] at hm'
    obtain ⟨-, hrest⟩ := hm'
    unfold Memory.insertCell
    split
    · apply lookup_consCell_self
      rw [Memory.lookup, if_neg (by omega)]
      exact lookup_eq_none_of_lt hrest (by omega)
    · split
      · apply lookup_consCell_self
        exact lookup_eq_none_of_lt hrest (by omega)
      · rename_i hne
        simp only [Memory.lookup, if_neg hne]
        exact ih hrest

/-! ## The canonical form -/

theorem canonicalFrom_mono {m : Memory} {lo lo' : Nat} (h : Memory.canonicalFrom lo m = true) (hle : lo' ≤ lo) :
    Memory.canonicalFrom lo' m = true := by
  cases m with
  | nil => rfl
  | cons c rest =>
    simp only [Memory.canonicalFrom, Bool.and_eq_true, decide_eq_true_eq] at h ⊢
    exact ⟨⟨⟨by omega, h.1.1.2⟩, h.1.2⟩, h.2⟩

theorem canonicalFrom_consCell {rest : Memory} {lo k : Nat} (b : Byte) (hlo : lo ≤ k) (hk : k < 4096)
    (hrest : Memory.canonicalFrom (k + 1) rest = true) :
    Memory.canonicalFrom lo (Memory.consCell k b rest) = true := by
  unfold Memory.consCell
  split
  · exact canonicalFrom_mono hrest (by omega)
  · simp only [Memory.canonicalFrom, Bool.and_eq_true, decide_eq_true_eq]
    exact ⟨⟨⟨hlo, hk⟩, by assumption⟩, hrest⟩

theorem canonicalFrom_insertCell {m : Memory} {lo k : Nat} (b : Byte) (hm : Memory.canonicalFrom lo m = true)
    (hlo : lo ≤ k) (hk : k < 4096) : Memory.canonicalFrom lo (Memory.insertCell k b m) = true := by
  induction m generalizing lo with
  | nil => exact canonicalFrom_consCell b hlo hk rfl
  | cons c rest ih =>
    obtain ⟨a, b'⟩ := c
    have hm' := hm
    simp only [Memory.canonicalFrom, Bool.and_eq_true, decide_eq_true_eq] at hm'
    obtain ⟨⟨⟨hla, ha⟩, hb⟩, hrest⟩ := hm'
    unfold Memory.insertCell
    split
    · apply canonicalFrom_consCell b hlo hk
      simp only [Memory.canonicalFrom, Bool.and_eq_true, decide_eq_true_eq]
      exact ⟨⟨⟨by omega, ha⟩, hb⟩, hrest⟩
    · split
      · exact canonicalFrom_consCell b hlo hk (canonicalFrom_mono hrest (by omega))
      · simp only [Memory.canonicalFrom, Bool.and_eq_true, decide_eq_true_eq]
        exact ⟨⟨⟨hla, ha⟩, hb⟩, ih hrest (by omega)⟩

/-- `MemWrite` keeps the canonical form. -/
theorem Memory.wf_write {m : Memory} (h : Memory.wf m = true) (a : Addr) (b : Byte) :
    Memory.wf (Memory.write m a b) = true :=
  canonicalFrom_insertCell b h (Nat.zero_le _) a.isLt

/-- A run of writes keeps the canonical form. -/
theorem Memory.wf_writeList {m : Memory} (h : Memory.wf m = true) (a : Addr) (l : List Byte) :
    Memory.wf (Memory.writeList m a l) = true := by
  induction l generalizing m a with
  | nil => exact h
  | cons b rest ih => exact ih (Memory.wf_write h a b) (a + 1)

/-! ## Reads after writes -/

/-- A read of another address does not see a write. -/
theorem Memory.read_write_of_ne (m : Memory) {a c : Addr} (b : Byte) (h : c ≠ a) :
    Memory.read (Memory.write m a b) c = Memory.read m c := by
  have : c.toNat ≠ a.toNat := fun e => h (BitVec.eq_of_toNat_eq e)
  simp only [Memory.read, Memory.write, lookup_insertCell_of_ne b m this]

/-- A read of the address written gives the byte written. -/
theorem Memory.read_write_self {m : Memory} (h : Memory.wf m = true) (a : Addr) (b : Byte) :
    Memory.read (Memory.write m a b) a = b :=
  lookup_insertCell_self a.toNat b h

/-- Everything a run of writes can do: the cell `k` bytes after `a` takes byte `k` of the list, and every
cell beyond the list keeps its byte. -/
theorem Memory.read_writeList {m : Memory} (h : Memory.wf m = true) (a c : Addr) {l : List Byte}
    (hl : l.length ≤ 4096) :
    Memory.read (Memory.writeList m a l) c = l.getD (c - a).toNat (Memory.read m c) := by
  induction l generalizing m a with
  | nil => simp [Memory.writeList]
  | cons b rest ih =>
    rw [Memory.writeList, ih (Memory.wf_write h a b) (a + 1) (by simp at hl; omega)]
    simp only [List.length_cons] at hl
    by_cases hc : c = a
    · subst hc
      have : (c - (c + 1)).toNat = 4095 := by bv_omega
      rw [this, List.getD_eq_default _ _ (by omega), Memory.read_write_self h]
      simp
    · have : (c - a).toNat = (c - (a + 1)).toNat + 1 := by bv_omega
      rw [this, List.getD_cons_succ, Memory.read_write_of_ne m b hc]

/-- A run of writes leaves the cells beyond it alone, in any memory. -/
theorem Memory.read_writeList_of_not_mem (m : Memory) (a c : Addr) {l : List Byte}
    (hc : l.length ≤ (c - a).toNat) :
    Memory.read (Memory.writeList m a l) c = Memory.read m c := by
  induction l generalizing m a with
  | nil => rfl
  | cons b rest ih =>
    simp only [List.length_cons] at hc
    have hne : c ≠ a := by rintro rfl; simp at hc
    rw [Memory.writeList, ih _ _ (by bv_omega), Memory.read_write_of_ne m b hne]

/-- Canonical memories that read alike are the same list. -/
theorem canonicalFrom_ext {m m' : Memory} {lo : Nat} (hm : Memory.canonicalFrom lo m = true)
    (hm' : Memory.canonicalFrom lo m' = true)
    (h : ∀ k, (Memory.lookup k m).getD (resetByte k) = (Memory.lookup k m').getD (resetByte k)) : m = m' := by
  induction m generalizing m' lo with
  | nil =>
    cases m' with
    | nil => rfl
    | cons c rest =>
      obtain ⟨a, b⟩ := c
      simp only [Memory.canonicalFrom, Bool.and_eq_true, decide_eq_true_eq] at hm'
      exact absurd (h a).symm (by simpa [Memory.lookup] using hm'.1.2)
  | cons c rest ih =>
    obtain ⟨a, b⟩ := c
    simp only [Memory.canonicalFrom, Bool.and_eq_true, decide_eq_true_eq] at hm
    obtain ⟨⟨⟨hla, ha⟩, hb⟩, hrest⟩ := hm
    cases m' with
    | nil => exact absurd (h a) (by simpa [Memory.lookup] using hb)
    | cons c' rest' =>
      obtain ⟨a', b'⟩ := c'
      simp only [Memory.canonicalFrom, Bool.and_eq_true, decide_eq_true_eq] at hm'
      obtain ⟨⟨⟨hla', ha'⟩, hb'⟩, hrest'⟩ := hm'
      have haa : a = a' := by
        rcases Nat.lt_trichotomy a a' with hlt | he | hlt
        · have := h a
          rw [Memory.lookup, if_pos rfl, Memory.lookup, if_neg (by omega),
            lookup_eq_none_of_lt hrest' (by omega)] at this
          exact absurd this (by simpa using hb)
        · exact he
        · have := (h a').symm
          rw [Memory.lookup, if_pos rfl, Memory.lookup, if_neg (by omega),
            lookup_eq_none_of_lt hrest (by omega)] at this
          exact absurd this (by simpa using hb')
      subst haa
      have hbb : b = b' := by simpa [Memory.lookup] using h a
      subst hbb
      congr 1
      apply ih hrest hrest'
      intro k
      by_cases hk : k = a
      · subst hk
        rw [lookup_eq_none_of_lt hrest (by omega), lookup_eq_none_of_lt hrest' (by omega)]
      · simpa [Memory.lookup, hk] using h k

/-- An address outside the address space is never listed. -/
theorem lookup_eq_none_of_ge {m : Memory} {lo k : Nat} (hm : Memory.canonicalFrom lo m = true)
    (hk : 4096 ≤ k) : Memory.lookup k m = none := by
  induction m generalizing lo with
  | nil => rfl
  | cons c rest ih =>
    obtain ⟨a, b⟩ := c
    simp only [Memory.canonicalFrom, Bool.and_eq_true, decide_eq_true_eq] at hm
    rw [Memory.lookup, if_neg (by omega)]
    exact ih hm.2

/-- Memories in canonical form that read alike at every address are equal. -/
theorem Memory.ext_read {m m' : Memory} (hm : Memory.wf m = true) (hm' : Memory.wf m' = true)
    (h : ∀ a : Addr, Memory.read m a = Memory.read m' a) : m = m' := by
  apply canonicalFrom_ext hm hm'
  intro k
  by_cases hk : k < 4096
  · simpa [Memory.read, Nat.mod_eq_of_lt hk] using h (BitVec.ofNat 12 k)
  · rw [lookup_eq_none_of_ge hm (by omega), lookup_eq_none_of_ge hm' (by omega)]

end Sys2Proof.Machine
end

