-- ==== Sys2Proof/Laws/State.lean ====
section
/-!
SUPPORT. One lemma per field per update, so that no later proof unfolds a record update.
-/

namespace Sys2Proof.Machine

/-! ## Reading and writing `V[x]` -/

theorem State.reg_setReg (s : State) (x y : RegIdx) (b : Byte) :
    (s.setReg x b).reg y = if x = y then b else s.reg y := by
  simp only [State.reg, State.setReg, Fin.getElem_fin, Vector.getElem_set, Fin.ext_iff]

@[simp] theorem State.reg_setReg_self (s : State) (x : RegIdx) (b : Byte) : (s.setReg x b).reg x = b := by
  simp [State.reg_setReg]

theorem State.reg_setReg_of_ne (s : State) {x y : RegIdx} (b : Byte) (h : x ≠ y) :
    (s.setReg x b).reg y = s.reg y := by
  simp [State.reg_setReg, h]

/-- Two register files that read alike are equal. -/
theorem State.v_ext {s t : State} (h : ∀ x, s.reg x = t.reg x) : s.v = t.v := by
  apply Vector.ext
  intro k hk
  exact h ⟨k, hk⟩

/-- `V[x]` depends on the register file alone. -/
theorem State.reg_congr {s t : State} (h : s.v = t.v) (x : RegIdx) : s.reg x = t.reg x := by
  simp [State.reg, h]


/-! ## `State.setReg` -/

@[simp] theorem State.setReg_v (s : State) (x : RegIdx) (b : Byte) : (s.setReg x b).v = s.v.set x b := rfl
@[simp] theorem State.setReg_i (s : State) (x : RegIdx) (b : Byte) : (s.setReg x b).i = s.i := rfl
@[simp] theorem State.setReg_pc (s : State) (x : RegIdx) (b : Byte) : (s.setReg x b).pc = s.pc := rfl
@[simp] theorem State.setReg_stack (s : State) (x : RegIdx) (b : Byte) : (s.setReg x b).stack = s.stack := rfl
@[simp] theorem State.setReg_sp (s : State) (x : RegIdx) (b : Byte) : (s.setReg x b).sp = s.sp := rfl
@[simp] theorem State.setReg_dt (s : State) (x : RegIdx) (b : Byte) : (s.setReg x b).dt = s.dt := rfl
@[simp] theorem State.setReg_st (s : State) (x : RegIdx) (b : Byte) : (s.setReg x b).st = s.st := rfl
@[simp] theorem State.setReg_mem (s : State) (x : RegIdx) (b : Byte) : (s.setReg x b).mem = s.mem := rfl
@[simp] theorem State.setReg_fb (s : State) (x : RegIdx) (b : Byte) : (s.setReg x b).fb = s.fb := rfl
@[simp] theorem State.setReg_keys (s : State) (x : RegIdx) (b : Byte) : (s.setReg x b).keys = s.keys := rfl
@[simp] theorem State.setReg_keyInput (s : State) (x : RegIdx) (b : Byte) : (s.setReg x b).keyInput = s.keyInput := rfl
@[simp] theorem State.setReg_rng (s : State) (x : RegIdx) (b : Byte) : (s.setReg x b).rng = s.rng := rfl
@[simp] theorem State.setReg_opcode (s : State) (x : RegIdx) (b : Byte) : (s.setReg x b).opcode = s.opcode := rfl
@[simp] theorem State.setReg_fault (s : State) (x : RegIdx) (b : Byte) : (s.setReg x b).fault = s.fault := rfl

/-! ## `State.setI` -/

@[simp] theorem State.setI_v (s : State) (a : Addr) : (s.setI a).v = s.v := rfl
@[simp] theorem State.setI_i (s : State) (a : Addr) : (s.setI a).i = a := rfl
@[simp] theorem State.setI_pc (s : State) (a : Addr) : (s.setI a).pc = s.pc := rfl
@[simp] theorem State.setI_stack (s : State) (a : Addr) : (s.setI a).stack = s.stack := rfl
@[simp] theorem State.setI_sp (s : State) (a : Addr) : (s.setI a).sp = s.sp := rfl
@[simp] theorem State.setI_dt (s : State) (a : Addr) : (s.setI a).dt = s.dt := rfl
@[simp] theorem State.setI_st (s : State) (a : Addr) : (s.setI a).st = s.st := rfl
@[simp] theorem State.setI_mem (s : State) (a : Addr) : (s.setI a).mem = s.mem := rfl
@[simp] theorem State.setI_fb (s : State) (a : Addr) : (s.setI a).fb = s.fb := rfl
@[simp] theorem State.setI_keys (s : State) (a : Addr) : (s.setI a).keys = s.keys := rfl
@[simp] theorem State.setI_keyInput (s : State) (a : Addr) : (s.setI a).keyInput = s.keyInput := rfl
@[simp] theorem State.setI_rng (s : State) (a : Addr) : (s.setI a).rng = s.rng := rfl
@[simp] theorem State.setI_opcode (s : State) (a : Addr) : (s.setI a).opcode = s.opcode := rfl
@[simp] theorem State.setI_fault (s : State) (a : Addr) : (s.setI a).fault = s.fault := rfl
@[simp] theorem State.reg_setI (s : State) (a : Addr) (y : RegIdx) : (s.setI a).reg y = s.reg y := rfl

/-! ## `State.setPc` -/

@[simp] theorem State.setPc_v (s : State) (a : Addr) : (s.setPc a).v = s.v := rfl
@[simp] theorem State.setPc_i (s : State) (a : Addr) : (s.setPc a).i = s.i := rfl
@[simp] theorem State.setPc_pc (s : State) (a : Addr) : (s.setPc a).pc = a := rfl
@[simp] theorem State.setPc_stack (s : State) (a : Addr) : (s.setPc a).stack = s.stack := rfl
@[simp] theorem State.setPc_sp (s : State) (a : Addr) : (s.setPc a).sp = s.sp := rfl
@[simp] theorem State.setPc_dt (s : State) (a : Addr) : (s.setPc a).dt = s.dt := rfl
@[simp] theorem State.setPc_st (s : State) (a : Addr) : (s.setPc a).st = s.st := rfl
@[simp] theorem State.setPc_mem (s : State) (a : Addr) : (s.setPc a).mem = s.mem := rfl
@[simp] theorem State.setPc_fb (s : State) (a : Addr) : (s.setPc a).fb = s.fb := rfl
@[simp] theorem State.setPc_keys (s : State) (a : Addr) : (s.setPc a).keys = s.keys := rfl
@[simp] theorem State.setPc_keyInput (s : State) (a : Addr) : (s.setPc a).keyInput = s.keyInput := rfl
@[simp] theorem State.setPc_rng (s : State) (a : Addr) : (s.setPc a).rng = s.rng := rfl
@[simp] theorem State.setPc_opcode (s : State) (a : Addr) : (s.setPc a).opcode = s.opcode := rfl
@[simp] theorem State.setPc_fault (s : State) (a : Addr) : (s.setPc a).fault = s.fault := rfl
@[simp] theorem State.reg_setPc (s : State) (a : Addr) (y : RegIdx) : (s.setPc a).reg y = s.reg y := rfl

/-! ## `State.setDt` -/

@[simp] theorem State.setDt_v (s : State) (b : Byte) : (s.setDt b).v = s.v := rfl
@[simp] theorem State.setDt_i (s : State) (b : Byte) : (s.setDt b).i = s.i := rfl
@[simp] theorem State.setDt_pc (s : State) (b : Byte) : (s.setDt b).pc = s.pc := rfl
@[simp] theorem State.setDt_stack (s : State) (b : Byte) : (s.setDt b).stack = s.stack := rfl
@[simp] theorem State.setDt_sp (s : State) (b : Byte) : (s.setDt b).sp = s.sp := rfl
@[simp] theorem State.setDt_dt (s : State) (b : Byte) : (s.setDt b).dt = b := rfl
@[simp] theorem State.setDt_st (s : State) (b : Byte) : (s.setDt b).st = s.st := rfl
@[simp] theorem State.setDt_mem (s : State) (b : Byte) : (s.setDt b).mem = s.mem := rfl
@[simp] theorem State.setDt_fb (s : State) (b : Byte) : (s.setDt b).fb = s.fb := rfl
@[simp] theorem State.setDt_keys (s : State) (b : Byte) : (s.setDt b).keys = s.keys := rfl
@[simp] theorem State.setDt_keyInput (s : State) (b : Byte) : (s.setDt b).keyInput = s.keyInput := rfl
@[simp] theorem State.setDt_rng (s : State) (b : Byte) : (s.setDt b).rng = s.rng := rfl
@[simp] theorem State.setDt_opcode (s : State) (b : Byte) : (s.setDt b).opcode = s.opcode := rfl
@[simp] theorem State.setDt_fault (s : State) (b : Byte) : (s.setDt b).fault = s.fault := rfl
@[simp] theorem State.reg_setDt (s : State) (b : Byte) (y : RegIdx) : (s.setDt b).reg y = s.reg y := rfl

/-! ## `State.setSt` -/

@[simp] theorem State.setSt_v (s : State) (b : Byte) : (s.setSt b).v = s.v := rfl
@[simp] theorem State.setSt_i (s : State) (b : Byte) : (s.setSt b).i = s.i := rfl
@[simp] theorem State.setSt_pc (s : State) (b : Byte) : (s.setSt b).pc = s.pc := rfl
@[simp] theorem State.setSt_stack (s : State) (b : Byte) : (s.setSt b).stack = s.stack := rfl
@[simp] theorem State.setSt_sp (s : State) (b : Byte) : (s.setSt b).sp = s.sp := rfl
@[simp] theorem State.setSt_dt (s : State) (b : Byte) : (s.setSt b).dt = s.dt := rfl
@[simp] theorem State.setSt_st (s : State) (b : Byte) : (s.setSt b).st = b := rfl
@[simp] theorem State.setSt_mem (s : State) (b : Byte) : (s.setSt b).mem = s.mem := rfl
@[simp] theorem State.setSt_fb (s : State) (b : Byte) : (s.setSt b).fb = s.fb := rfl
@[simp] theorem State.setSt_keys (s : State) (b : Byte) : (s.setSt b).keys = s.keys := rfl
@[simp] theorem State.setSt_keyInput (s : State) (b : Byte) : (s.setSt b).keyInput = s.keyInput := rfl
@[simp] theorem State.setSt_rng (s : State) (b : Byte) : (s.setSt b).rng = s.rng := rfl
@[simp] theorem State.setSt_opcode (s : State) (b : Byte) : (s.setSt b).opcode = s.opcode := rfl
@[simp] theorem State.setSt_fault (s : State) (b : Byte) : (s.setSt b).fault = s.fault := rfl
@[simp] theorem State.reg_setSt (s : State) (b : Byte) (y : RegIdx) : (s.setSt b).reg y = s.reg y := rfl

/-! ## `State.setMem` -/

@[simp] theorem State.setMem_v (s : State) (m : Memory) : (s.setMem m).v = s.v := rfl
@[simp] theorem State.setMem_i (s : State) (m : Memory) : (s.setMem m).i = s.i := rfl
@[simp] theorem State.setMem_pc (s : State) (m : Memory) : (s.setMem m).pc = s.pc := rfl
@[simp] theorem State.setMem_stack (s : State) (m : Memory) : (s.setMem m).stack = s.stack := rfl
@[simp] theorem State.setMem_sp (s : State) (m : Memory) : (s.setMem m).sp = s.sp := rfl
@[simp] theorem State.setMem_dt (s : State) (m : Memory) : (s.setMem m).dt = s.dt := rfl
@[simp] theorem State.setMem_st (s : State) (m : Memory) : (s.setMem m).st = s.st := rfl
@[simp] theorem State.setMem_mem (s : State) (m : Memory) : (s.setMem m).mem = m := rfl
@[simp] theorem State.setMem_fb (s : State) (m : Memory) : (s.setMem m).fb = s.fb := rfl
@[simp] theorem State.setMem_keys (s : State) (m : Memory) : (s.setMem m).keys = s.keys := rfl
@[simp] theorem State.setMem_keyInput (s : State) (m : Memory) : (s.setMem m).keyInput = s.keyInput := rfl
@[simp] theorem State.setMem_rng (s : State) (m : Memory) : (s.setMem m).rng = s.rng := rfl
@[simp] theorem State.setMem_opcode (s : State) (m : Memory) : (s.setMem m).opcode = s.opcode := rfl
@[simp] theorem State.setMem_fault (s : State) (m : Memory) : (s.setMem m).fault = s.fault := rfl
@[simp] theorem State.reg_setMem (s : State) (m : Memory) (y : RegIdx) : (s.setMem m).reg y = s.reg y := rfl

/-! ## `State.setFb` -/

@[simp] theorem State.setFb_v (s : State) (fb : Framebuffer) : (s.setFb fb).v = s.v := rfl
@[simp] theorem State.setFb_i (s : State) (fb : Framebuffer) : (s.setFb fb).i = s.i := rfl
@[simp] theorem State.setFb_pc (s : State) (fb : Framebuffer) : (s.setFb fb).pc = s.pc := rfl
@[simp] theorem State.setFb_stack (s : State) (fb : Framebuffer) : (s.setFb fb).stack = s.stack := rfl
@[simp] theorem State.setFb_sp (s : State) (fb : Framebuffer) : (s.setFb fb).sp = s.sp := rfl
@[simp] theorem State.setFb_dt (s : State) (fb : Framebuffer) : (s.setFb fb).dt = s.dt := rfl
@[simp] theorem State.setFb_st (s : State) (fb : Framebuffer) : (s.setFb fb).st = s.st := rfl
@[simp] theorem State.setFb_mem (s : State) (fb : Framebuffer) : (s.setFb fb).mem = s.mem := rfl
@[simp] theorem State.setFb_fb (s : State) (fb : Framebuffer) : (s.setFb fb).fb = fb := rfl
@[simp] theorem State.setFb_keys (s : State) (fb : Framebuffer) : (s.setFb fb).keys = s.keys := rfl
@[simp] theorem State.setFb_keyInput (s : State) (fb : Framebuffer) : (s.setFb fb).keyInput = s.keyInput := rfl
@[simp] theorem State.setFb_rng (s : State) (fb : Framebuffer) : (s.setFb fb).rng = s.rng := rfl
@[simp] theorem State.setFb_opcode (s : State) (fb : Framebuffer) : (s.setFb fb).opcode = s.opcode := rfl
@[simp] theorem State.setFb_fault (s : State) (fb : Framebuffer) : (s.setFb fb).fault = s.fault := rfl
@[simp] theorem State.reg_setFb (s : State) (fb : Framebuffer) (y : RegIdx) : (s.setFb fb).reg y = s.reg y := rfl

/-! ## `State.setRng` -/

@[simp] theorem State.setRng_v (s : State) (r : Nat) : (s.setRng r).v = s.v := rfl
@[simp] theorem State.setRng_i (s : State) (r : Nat) : (s.setRng r).i = s.i := rfl
@[simp] theorem State.setRng_pc (s : State) (r : Nat) : (s.setRng r).pc = s.pc := rfl
@[simp] theorem State.setRng_stack (s : State) (r : Nat) : (s.setRng r).stack = s.stack := rfl
@[simp] theorem State.setRng_sp (s : State) (r : Nat) : (s.setRng r).sp = s.sp := rfl
@[simp] theorem State.setRng_dt (s : State) (r : Nat) : (s.setRng r).dt = s.dt := rfl
@[simp] theorem State.setRng_st (s : State) (r : Nat) : (s.setRng r).st = s.st := rfl
@[simp] theorem State.setRng_mem (s : State) (r : Nat) : (s.setRng r).mem = s.mem := rfl
@[simp] theorem State.setRng_fb (s : State) (r : Nat) : (s.setRng r).fb = s.fb := rfl
@[simp] theorem State.setRng_keys (s : State) (r : Nat) : (s.setRng r).keys = s.keys := rfl
@[simp] theorem State.setRng_keyInput (s : State) (r : Nat) : (s.setRng r).keyInput = s.keyInput := rfl
@[simp] theorem State.setRng_rng (s : State) (r : Nat) : (s.setRng r).rng = r := rfl
@[simp] theorem State.setRng_opcode (s : State) (r : Nat) : (s.setRng r).opcode = s.opcode := rfl
@[simp] theorem State.setRng_fault (s : State) (r : Nat) : (s.setRng r).fault = s.fault := rfl
@[simp] theorem State.reg_setRng (s : State) (r : Nat) (y : RegIdx) : (s.setRng r).reg y = s.reg y := rfl

/-! ## `State.skip` -/

@[simp] theorem State.skip_v (s : State) : s.skip.v = s.v := rfl
@[simp] theorem State.skip_i (s : State) : s.skip.i = s.i := rfl
@[simp] theorem State.skip_pc (s : State) : s.skip.pc = s.pc + 2 := rfl
@[simp] theorem State.skip_stack (s : State) : s.skip.stack = s.stack := rfl
@[simp] theorem State.skip_sp (s : State) : s.skip.sp = s.sp := rfl
@[simp] theorem State.skip_dt (s : State) : s.skip.dt = s.dt := rfl
@[simp] theorem State.skip_st (s : State) : s.skip.st = s.st := rfl
@[simp] theorem State.skip_mem (s : State) : s.skip.mem = s.mem := rfl
@[simp] theorem State.skip_fb (s : State) : s.skip.fb = s.fb := rfl
@[simp] theorem State.skip_keys (s : State) : s.skip.keys = s.keys := rfl
@[simp] theorem State.skip_keyInput (s : State) : s.skip.keyInput = s.keyInput := rfl
@[simp] theorem State.skip_rng (s : State) : s.skip.rng = s.rng := rfl
@[simp] theorem State.skip_opcode (s : State) : s.skip.opcode = s.opcode := rfl
@[simp] theorem State.skip_fault (s : State) : s.skip.fault = s.fault := rfl
@[simp] theorem State.reg_skip (s : State) (y : RegIdx) : s.skip.reg y = s.reg y := rfl

/-! ## `State.retreat` -/

@[simp] theorem State.retreat_v (s : State) : s.retreat.v = s.v := rfl
@[simp] theorem State.retreat_i (s : State) : s.retreat.i = s.i := rfl
@[simp] theorem State.retreat_pc (s : State) : s.retreat.pc = s.pc - 2 := rfl
@[simp] theorem State.retreat_stack (s : State) : s.retreat.stack = s.stack := rfl
@[simp] theorem State.retreat_sp (s : State) : s.retreat.sp = s.sp := rfl
@[simp] theorem State.retreat_dt (s : State) : s.retreat.dt = s.dt := rfl
@[simp] theorem State.retreat_st (s : State) : s.retreat.st = s.st := rfl
@[simp] theorem State.retreat_mem (s : State) : s.retreat.mem = s.mem := rfl
@[simp] theorem State.retreat_fb (s : State) : s.retreat.fb = s.fb := rfl
@[simp] theorem State.retreat_keys (s : State) : s.retreat.keys = s.keys := rfl
@[simp] theorem State.retreat_keyInput (s : State) : s.retreat.keyInput = s.keyInput := rfl
@[simp] theorem State.retreat_rng (s : State) : s.retreat.rng = s.rng := rfl
@[simp] theorem State.retreat_opcode (s : State) : s.retreat.opcode = s.opcode := rfl
@[simp] theorem State.retreat_fault (s : State) : s.retreat.fault = s.fault := rfl
@[simp] theorem State.reg_retreat (s : State) (y : RegIdx) : s.retreat.reg y = s.reg y := rfl

/-! ## `timerStep` -/

@[simp] theorem timerStep_v (s : State) : (timerStep s).v = s.v := rfl
@[simp] theorem timerStep_i (s : State) : (timerStep s).i = s.i := rfl
@[simp] theorem timerStep_pc (s : State) : (timerStep s).pc = s.pc := rfl
@[simp] theorem timerStep_stack (s : State) : (timerStep s).stack = s.stack := rfl
@[simp] theorem timerStep_sp (s : State) : (timerStep s).sp = s.sp := rfl
@[simp] theorem timerStep_dt (s : State) : (timerStep s).dt = tick s.dt := rfl
@[simp] theorem timerStep_st (s : State) : (timerStep s).st = tick s.st := rfl
@[simp] theorem timerStep_mem (s : State) : (timerStep s).mem = s.mem := rfl
@[simp] theorem timerStep_fb (s : State) : (timerStep s).fb = s.fb := rfl
@[simp] theorem timerStep_keys (s : State) : (timerStep s).keys = s.keys := rfl
@[simp] theorem timerStep_keyInput (s : State) : (timerStep s).keyInput = s.keyInput := rfl
@[simp] theorem timerStep_rng (s : State) : (timerStep s).rng = s.rng := rfl
@[simp] theorem timerStep_opcode (s : State) : (timerStep s).opcode = s.opcode := rfl
@[simp] theorem timerStep_fault (s : State) : (timerStep s).fault = s.fault := rfl
@[simp] theorem reg_timerStep (s : State) (y : RegIdx) : (timerStep s).reg y = s.reg y := rfl

/-! ## `State.skipIf` -/

@[simp] theorem State.skipIf_v (s : State) (c : Bool) : (s.skipIf c).v = s.v := by cases c <;> rfl
@[simp] theorem State.skipIf_i (s : State) (c : Bool) : (s.skipIf c).i = s.i := by cases c <;> rfl
@[simp] theorem State.skipIf_pc (s : State) (c : Bool) :
    (s.skipIf c).pc = if c then s.pc + 2 else s.pc := by
  cases c <;> rfl
@[simp] theorem State.skipIf_stack (s : State) (c : Bool) : (s.skipIf c).stack = s.stack := by cases c <;> rfl
@[simp] theorem State.skipIf_sp (s : State) (c : Bool) : (s.skipIf c).sp = s.sp := by cases c <;> rfl
@[simp] theorem State.skipIf_dt (s : State) (c : Bool) : (s.skipIf c).dt = s.dt := by cases c <;> rfl
@[simp] theorem State.skipIf_st (s : State) (c : Bool) : (s.skipIf c).st = s.st := by cases c <;> rfl
@[simp] theorem State.skipIf_mem (s : State) (c : Bool) : (s.skipIf c).mem = s.mem := by cases c <;> rfl
@[simp] theorem State.skipIf_fb (s : State) (c : Bool) : (s.skipIf c).fb = s.fb := by cases c <;> rfl
@[simp] theorem State.skipIf_keys (s : State) (c : Bool) : (s.skipIf c).keys = s.keys := by cases c <;> rfl
@[simp] theorem State.skipIf_keyInput (s : State) (c : Bool) : (s.skipIf c).keyInput = s.keyInput := by cases c <;> rfl
@[simp] theorem State.skipIf_rng (s : State) (c : Bool) : (s.skipIf c).rng = s.rng := by cases c <;> rfl
@[simp] theorem State.skipIf_opcode (s : State) (c : Bool) : (s.skipIf c).opcode = s.opcode := by cases c <;> rfl
@[simp] theorem State.skipIf_fault (s : State) (c : Bool) : (s.skipIf c).fault = s.fault := by cases c <;> rfl
@[simp] theorem State.reg_skipIf (s : State) (c : Bool) (y : RegIdx) : (s.skipIf c).reg y = s.reg y := by
  cases c <;> rfl

/-! ## `sampleKeys` and `beginCycle` -/

@[simp] theorem sampleKeys_v (s : State) : (sampleKeys s).v = s.v := by
  unfold sampleKeys; split <;> rfl
@[simp] theorem sampleKeys_i (s : State) : (sampleKeys s).i = s.i := by
  unfold sampleKeys; split <;> rfl
@[simp] theorem sampleKeys_pc (s : State) : (sampleKeys s).pc = s.pc := by
  unfold sampleKeys; split <;> rfl
@[simp] theorem sampleKeys_stack (s : State) : (sampleKeys s).stack = s.stack := by
  unfold sampleKeys; split <;> rfl
@[simp] theorem sampleKeys_sp (s : State) : (sampleKeys s).sp = s.sp := by
  unfold sampleKeys; split <;> rfl
@[simp] theorem sampleKeys_dt (s : State) : (sampleKeys s).dt = s.dt := by
  unfold sampleKeys; split <;> rfl
@[simp] theorem sampleKeys_st (s : State) : (sampleKeys s).st = s.st := by
  unfold sampleKeys; split <;> rfl
@[simp] theorem sampleKeys_mem (s : State) : (sampleKeys s).mem = s.mem := by
  unfold sampleKeys; split <;> rfl
@[simp] theorem sampleKeys_fb (s : State) : (sampleKeys s).fb = s.fb := by
  unfold sampleKeys; split <;> rfl
@[simp] theorem sampleKeys_keys (s : State) : (sampleKeys s).keys = s.keyInput.headD s.keys := by
  unfold sampleKeys; split <;> simp [*]
@[simp] theorem sampleKeys_keyInput (s : State) : (sampleKeys s).keyInput = s.keyInput.tail := by
  unfold sampleKeys; split <;> simp [*]
@[simp] theorem sampleKeys_rng (s : State) : (sampleKeys s).rng = s.rng := by
  unfold sampleKeys; split <;> rfl
@[simp] theorem sampleKeys_opcode (s : State) : (sampleKeys s).opcode = s.opcode := by
  unfold sampleKeys; split <;> rfl
@[simp] theorem sampleKeys_fault (s : State) : (sampleKeys s).fault = s.fault := by
  unfold sampleKeys; split <;> rfl
@[simp] theorem beginCycle_v (s : State) : (beginCycle s).v = s.v := sampleKeys_v s
@[simp] theorem beginCycle_i (s : State) : (beginCycle s).i = s.i := sampleKeys_i s
@[simp] theorem beginCycle_pc (s : State) : (beginCycle s).pc = s.pc + 2 := rfl
@[simp] theorem beginCycle_stack (s : State) : (beginCycle s).stack = s.stack := sampleKeys_stack s
@[simp] theorem beginCycle_sp (s : State) : (beginCycle s).sp = s.sp := sampleKeys_sp s
@[simp] theorem beginCycle_dt (s : State) : (beginCycle s).dt = s.dt := sampleKeys_dt s
@[simp] theorem beginCycle_st (s : State) : (beginCycle s).st = s.st := sampleKeys_st s
@[simp] theorem beginCycle_mem (s : State) : (beginCycle s).mem = s.mem := sampleKeys_mem s
@[simp] theorem beginCycle_fb (s : State) : (beginCycle s).fb = s.fb := sampleKeys_fb s
@[simp] theorem beginCycle_keys (s : State) : (beginCycle s).keys = s.keyInput.headD s.keys :=
  sampleKeys_keys s
@[simp] theorem beginCycle_keyInput (s : State) : (beginCycle s).keyInput = s.keyInput.tail :=
  sampleKeys_keyInput s
@[simp] theorem beginCycle_rng (s : State) : (beginCycle s).rng = s.rng := sampleKeys_rng s
@[simp] theorem beginCycle_opcode (s : State) : (beginCycle s).opcode = fetchWord s := rfl
@[simp] theorem beginCycle_fault (s : State) : (beginCycle s).fault = s.fault := sampleKeys_fault s
@[simp] theorem reg_beginCycle (s : State) (y : RegIdx) : (beginCycle s).reg y = s.reg y :=
  State.reg_congr (beginCycle_v s) y

/-! ## `State.setFlagAndResult` -/

theorem State.setFlagAndResult_eq (s : State) (x : RegIdx) (r : Bool × Byte) :
    s.setFlagAndResult x r = (s.setReg vF (flagByte r.1)).setReg x r.2 := rfl

theorem State.reg_setFlagAndResult (s : State) (x y : RegIdx) (r : Bool × Byte) :
    (s.setFlagAndResult x r).reg y = if x = y then r.2 else if vF = y then flagByte r.1 else s.reg y := by
  simp only [State.setFlagAndResult_eq, State.reg_setReg]

@[simp] theorem State.setFlagAndResult_i (s : State) (x : RegIdx) (r : Bool × Byte) :
    (s.setFlagAndResult x r).i = s.i := rfl
@[simp] theorem State.setFlagAndResult_pc (s : State) (x : RegIdx) (r : Bool × Byte) :
    (s.setFlagAndResult x r).pc = s.pc := rfl
@[simp] theorem State.setFlagAndResult_stack (s : State) (x : RegIdx) (r : Bool × Byte) :
    (s.setFlagAndResult x r).stack = s.stack := rfl
@[simp] theorem State.setFlagAndResult_sp (s : State) (x : RegIdx) (r : Bool × Byte) :
    (s.setFlagAndResult x r).sp = s.sp := rfl
@[simp] theorem State.setFlagAndResult_dt (s : State) (x : RegIdx) (r : Bool × Byte) :
    (s.setFlagAndResult x r).dt = s.dt := rfl
@[simp] theorem State.setFlagAndResult_st (s : State) (x : RegIdx) (r : Bool × Byte) :
    (s.setFlagAndResult x r).st = s.st := rfl
@[simp] theorem State.setFlagAndResult_mem (s : State) (x : RegIdx) (r : Bool × Byte) :
    (s.setFlagAndResult x r).mem = s.mem := rfl
@[simp] theorem State.setFlagAndResult_fb (s : State) (x : RegIdx) (r : Bool × Byte) :
    (s.setFlagAndResult x r).fb = s.fb := rfl
@[simp] theorem State.setFlagAndResult_keys (s : State) (x : RegIdx) (r : Bool × Byte) :
    (s.setFlagAndResult x r).keys = s.keys := rfl
@[simp] theorem State.setFlagAndResult_keyInput (s : State) (x : RegIdx) (r : Bool × Byte) :
    (s.setFlagAndResult x r).keyInput = s.keyInput := rfl
@[simp] theorem State.setFlagAndResult_rng (s : State) (x : RegIdx) (r : Bool × Byte) :
    (s.setFlagAndResult x r).rng = s.rng := rfl
@[simp] theorem State.setFlagAndResult_opcode (s : State) (x : RegIdx) (r : Bool × Byte) :
    (s.setFlagAndResult x r).opcode = s.opcode := rfl
@[simp] theorem State.setFlagAndResult_fault (s : State) (x : RegIdx) (r : Bool × Byte) :
    (s.setFlagAndResult x r).fault = s.fault := rfl

/-! ## `State.loadBlock` -/

@[simp] theorem State.loadBlock_i (s : State) (l : List RegIdx) : (s.loadBlock l).i = s.i := by
  induction l generalizing s with
  | nil => rfl
  | cons k rest ih => exact ih _
@[simp] theorem State.loadBlock_pc (s : State) (l : List RegIdx) : (s.loadBlock l).pc = s.pc := by
  induction l generalizing s with
  | nil => rfl
  | cons k rest ih => exact ih _
@[simp] theorem State.loadBlock_stack (s : State) (l : List RegIdx) : (s.loadBlock l).stack = s.stack := by
  induction l generalizing s with
  | nil => rfl
  | cons k rest ih => exact ih _
@[simp] theorem State.loadBlock_sp (s : State) (l : List RegIdx) : (s.loadBlock l).sp = s.sp := by
  induction l generalizing s with
  | nil => rfl
  | cons k rest ih => exact ih _
@[simp] theorem State.loadBlock_dt (s : State) (l : List RegIdx) : (s.loadBlock l).dt = s.dt := by
  induction l generalizing s with
  | nil => rfl
  | cons k rest ih => exact ih _
@[simp] theorem State.loadBlock_st (s : State) (l : List RegIdx) : (s.loadBlock l).st = s.st := by
  induction l generalizing s with
  | nil => rfl
  | cons k rest ih => exact ih _
@[simp] theorem State.loadBlock_mem (s : State) (l : List RegIdx) : (s.loadBlock l).mem = s.mem := by
  induction l generalizing s with
  | nil => rfl
  | cons k rest ih => exact ih _
@[simp] theorem State.loadBlock_fb (s : State) (l : List RegIdx) : (s.loadBlock l).fb = s.fb := by
  induction l generalizing s with
  | nil => rfl
  | cons k rest ih => exact ih _
@[simp] theorem State.loadBlock_keys (s : State) (l : List RegIdx) : (s.loadBlock l).keys = s.keys := by
  induction l generalizing s with
  | nil => rfl
  | cons k rest ih => exact ih _
@[simp] theorem State.loadBlock_keyInput (s : State) (l : List RegIdx) : (s.loadBlock l).keyInput = s.keyInput := by
  induction l generalizing s with
  | nil => rfl
  | cons k rest ih => exact ih _
@[simp] theorem State.loadBlock_rng (s : State) (l : List RegIdx) : (s.loadBlock l).rng = s.rng := by
  induction l generalizing s with
  | nil => rfl
  | cons k rest ih => exact ih _
@[simp] theorem State.loadBlock_opcode (s : State) (l : List RegIdx) : (s.loadBlock l).opcode = s.opcode := by
  induction l generalizing s with
  | nil => rfl
  | cons k rest ih => exact ih _
@[simp] theorem State.loadBlock_fault (s : State) (l : List RegIdx) : (s.loadBlock l).fault = s.fault := by
  induction l generalizing s with
  | nil => rfl
  | cons k rest ih => exact ih _

end Sys2Proof.Machine
end

