-- ==== Sys2Proof/Laws/Ops.lean ====
section
/-!
SUPPORT. One lemma for each shared operation: everything it can do.
-/

namespace Sys2Proof.Machine

/-! ## Registers -/

theorem State.setReg_self (s : State) (x : RegIdx) : s.setReg x (s.reg x) = s := by
  simp [State.setReg, State.reg]

/-! ## The call stack -/

/-- The push, when there is room: the entry at `SP` takes `pc`, `SP` grows by one, nothing else changes. -/
theorem State.pushPc_eq_some {s t : State} (h : s.pushPc = some t) :
    ∃ hsp : s.sp.val < 16, t = { s with stack := s.stack.set s.sp.val s.pc, sp := ⟨s.sp.val + 1, by omega⟩ } := by
  unfold State.pushPc at h
  split at h
  · exact ⟨by assumption, (Option.some.inj h).symm⟩
  · simp at h

theorem State.pushPc_of_lt {s : State} (h : s.sp.val < 16) :
    s.pushPc = some { s with stack := s.stack.set s.sp.val s.pc, sp := ⟨s.sp.val + 1, by omega⟩ } := by
  simp [State.pushPc, h]

theorem State.pushPc_eq_none_iff (s : State) : s.pushPc = none ↔ s.sp.val = 16 := by
  unfold State.pushPc
  split
  · simp; omega
  · simp; omega

/-- The pop, when there is an entry: `pc` takes the last live entry, `SP` falls by one, nothing else changes. -/
theorem State.popPc_eq_some {s t : State} (h : s.popPc = some t) :
    ∃ hsp : 0 < s.sp.val, t = { s with pc := s.stack[s.sp.val - 1], sp := ⟨s.sp.val - 1, by omega⟩ } := by
  unfold State.popPc at h
  split at h
  · exact ⟨by assumption, (Option.some.inj h).symm⟩
  · simp at h

theorem State.popPc_of_pos {s : State} (h : 0 < s.sp.val) :
    s.popPc = some { s with pc := s.stack[s.sp.val - 1], sp := ⟨s.sp.val - 1, by omega⟩ } := by
  simp [State.popPc, h]

theorem State.popPc_eq_none_iff (s : State) : s.popPc = none ↔ s.sp.val = 0 := by
  unfold State.popPc
  split
  · simp; omega
  · simp; omega

/-! ## Fault entry -/

theorem raiseFault_eq (f : FaultStatus) (s : State) :
    raiseFault f s = .next { s with pc := s.pc - 2, fault := f } := rfl

/-! ## Keys -/

/-- The lowest pressed key, when there is one, is pressed and no lower key is. -/
theorem State.lowestKey_eq_some {s : State} {k : KeyIdx} (h : s.lowestKey = some k) :
    s.keyDown k = true ∧ ∀ j < k, s.keyDown j = false := by
  unfold State.lowestKey at h
  obtain ⟨hk, n, hn, hget, hlt⟩ := List.find?_eq_some_iff_getElem.mp h
  refine ⟨hk, fun j hj => ?_⟩
  rw [List.getElem_finRange] at hget
  have hnk : n = k.val := by rw [← hget]; rfl
  have := hlt j.val (by rw [hnk]; exact hj)
  simpa using this

theorem State.lowestKey_eq_none_iff (s : State) : s.lowestKey = none ↔ ∀ k, s.keyDown k = false := by
  simp [State.lowestKey, List.find?_eq_none]

/-! ## Block registers -/

theorem mem_blockRegs (x k : RegIdx) : k ∈ blockRegs x ↔ k ≤ x := by
  unfold blockRegs
  rw [List.mem_take_iff_getElem]
  simp only [List.getElem_finRange, List.length_finRange, Fin.le_def]
  constructor
  · rintro ⟨n, hn, rfl⟩
    simp; omega
  · intro h
    exact ⟨k.val, by omega, by simp⟩

theorem length_blockRegs (x : RegIdx) : (blockRegs x).length = x.val + 1 := by
  simp [blockRegs]

theorem getElem_blockRegs (x : RegIdx) (k : Nat) (h : k < (blockRegs x).length) :
    (blockRegs x)[k].val = k := by
  simp [blockRegs, List.getElem_take, List.getElem_finRange]

/-- A block load: register `k` of the block takes the byte at `EA(k)`, every other register keeps its value. -/
theorem State.reg_loadBlock (s : State) (l : List RegIdx) (k : RegIdx) :
    (s.loadBlock l).reg k =
      if k ∈ l then Memory.read s.mem (effectiveAddress s.i k.val) else s.reg k := by
  induction l generalizing s with
  | nil => simp [State.loadBlock]
  | cons j rest ih =>
    rw [State.loadBlock, ih]
    by_cases hk : k ∈ rest
    · simp [hk]
    · by_cases hj : k = j
      · subst hj; simp [hk]
      · simp [hk, hj, State.reg_setReg_of_ne s _ (Ne.symm hj)]

/-! ## Fetch -/

/-- Fetch depends on memory and `pc` alone. -/
theorem fetchWord_congr {s t : State} (hm : s.mem = t.mem) (hpc : s.pc = t.pc) : fetchWord s = fetchWord t := by
  simp [fetchWord, hm, hpc]

/-- The word placed for the next cycle is the word that cycle fetches. -/
theorem fetchWord_withFetchWord {s : State} (h : Memory.wf s.mem = true) (nbits w : Nat) :
    fetchWord (s.withFetchWord nbits w) = BitVec.ofNat 16 (w % 2 ^ nbits) := by
  have hne : s.pc ≠ s.pc + 1 := by bv_omega
  simp only [fetchWord, State.withFetchWord, Memory.writeList]
  rw [Memory.read_write_of_ne _ _ hne, Memory.read_write_self h, Memory.read_write_self (Memory.wf_write h _ _),
    wordOfBytes_bytes]

/-! ## The step -/

theorem step_of_faulted {s : State} (h : s.fault ≠ .running) : step s = .next s := by
  simp [step, h]

theorem step_of_running {s : State} (h : s.fault = .running) :
    step s = finishCycle s (exec (decode (fetchWord s)) (beginCycle s)) := by
  simp [step, h]

theorem finishCycle_next_running {s0 t : State} (h : t.fault = .running) :
    finishCycle s0 (.next t) = .next (timerStep t) := by
  simp [finishCycle, h]

theorem finishCycle_next_faulted {s0 t : State} (h : t.fault ≠ .running) :
    finishCycle s0 (.next t) = .next { t with keys := s0.keys, keyInput := s0.keyInput } := by
  simp [finishCycle, h]

/-- Everything a step can do: nothing, in the faulted state; a whole cycle with its timer step; or a cycle
abandoned by a fault. -/
theorem step_eq_next {s u : State} (h : step s = .next u) :
    (s.fault ≠ .running ∧ u = s) ∨
    (s.fault = .running ∧ ∃ t, exec (decode (fetchWord s)) (beginCycle s) = .next t ∧
      ((t.fault = .running ∧ u = timerStep t) ∨
       (t.fault ≠ .running ∧ u = { t with keys := s.keys, keyInput := s.keyInput }))) := by
  by_cases hf : s.fault = .running
  · right
    refine ⟨hf, ?_⟩
    rw [step_of_running hf] at h
    cases he : exec (decode (fetchWord s)) (beginCycle s) with
    | next t =>
      refine ⟨t, rfl, ?_⟩
      rw [he] at h
      by_cases ht : t.fault = .running
      · rw [finishCycle_next_running ht] at h
        exact .inl ⟨ht, (Host.Outcome.next.inj h).symm⟩
      · rw [finishCycle_next_faulted ht] at h
        exact .inr ⟨ht, (Host.Outcome.next.inj h).symm⟩
    | fault r => cases r
    | refused r => rw [he] at h; cases h
  · left
    rw [step_of_faulted hf] at h
    exact ⟨hf, (Host.Outcome.next.inj h).symm⟩

end Sys2Proof.Machine
end

