-- ==== Sys2Proof/Laws/PerInstr.lean ====
section
/-!
SUPPORT. The laws made per instruction.

EncodeRow: the canonical word of an instruction selects a row of the opcode map that bears the instruction's
mnemonic (30_encoding.md R82, R83).
-/

namespace Sys2Proof.Laws.EncodeRow

/-- The canonical word of `i` selects `i`'s own row of the opcode map. -/
def Statement (i : Instr) : Prop :=
  ∃ r ∈ opcodeRows, r.mnemonic = i.mnemonic ∧ r.selects (encode i)

theorem of_top {i : Instr} {m : String} (hm : m = i.mnemonic) (t : BitVec 4) (p : Nat)
    (hr : ⟨m, 0xF000, t ++ 0#12, p⟩ ∈ opcodeRows)
    (ht : topNibble (encode i) = t) : Statement i :=
  ⟨_, hr, hm, (and_F000_eq_iff _ _).mpr ht⟩

theorem of_nibble {i : Instr} {m : String} (hm : m = i.mnemonic) (t n : BitVec 4)
    (hr : ⟨m, 0xF00F, t ++ 0#8 ++ n, 0⟩ ∈ opcodeRows)
    (ht : topNibble (encode i) = t) (hn : lowNibble (encode i) = n) : Statement i :=
  ⟨_, hr, hm, (and_F00F_eq_iff _ _ _).mpr ⟨ht, hn⟩⟩

theorem of_byte {i : Instr} {m : String} (hm : m = i.mnemonic) (kk : Byte)
    (hr : ⟨m, 0xF0FF, 0xF#4 ++ 0#4 ++ kk, 0⟩ ∈ opcodeRows)
    (ht : topNibble (encode i) = 0xF) (hk : fieldKk (encode i) = kk) : Statement i :=
  ⟨_, hr, hm, (and_F0FF_eq_iff _ _ _).mpr ⟨ht, hk⟩⟩

theorem cls : Statement Instr.cls :=
  of_nibble (m := "CLS") rfl 0x0 0x0 (by decide) (by decide) (by decide)

theorem ret : Statement Instr.ret :=
  of_nibble (m := "RET") rfl 0x0 0xE (by decide) (by decide) (by decide)

theorem jp (nnn : Addr) : Statement (Instr.jp nnn) :=
  of_top (m := "JP_addr") rfl 0x1 0 (by decide) (by simp [encode])

theorem call (nnn : Addr) : Statement (Instr.call nnn) :=
  of_top (m := "CALL_addr") rfl 0x2 0 (by decide) (by simp [encode])

theorem seByte (x : RegIdx) (kk : Byte) : Statement (Instr.seByte x kk) :=
  of_top (m := "SE_Vx__byte") rfl 0x3 0 (by decide) (by simp [encode])

theorem sneByte (x : RegIdx) (kk : Byte) : Statement (Instr.sneByte x kk) :=
  of_top (m := "SNE_Vx__byte") rfl 0x4 0 (by decide) (by simp [encode])

theorem seReg (x y : RegIdx) : Statement (Instr.seReg x y) :=
  of_top (m := "SE_Vx__Vy") rfl 0x5 0 (by decide) (by simp [encode])

theorem ldByte (x : RegIdx) (kk : Byte) : Statement (Instr.ldByte x kk) :=
  of_top (m := "LD_Vx__byte") rfl 0x6 0 (by decide) (by simp [encode])

theorem addByte (x : RegIdx) (kk : Byte) : Statement (Instr.addByte x kk) :=
  of_top (m := "ADD_Vx__byte") rfl 0x7 0 (by decide) (by simp [encode])

theorem ldReg (x y : RegIdx) : Statement (Instr.ldReg x y) :=
  of_nibble (m := "LD_Vx__Vy") rfl 0x8 0x0 (by decide) (by simp [encode]) (by simp [encode])

theorem orReg (x y : RegIdx) : Statement (Instr.orReg x y) :=
  of_nibble (m := "OR_Vx__Vy") rfl 0x8 0x1 (by decide) (by simp [encode]) (by simp [encode])

theorem andReg (x y : RegIdx) : Statement (Instr.andReg x y) :=
  of_nibble (m := "AND_Vx__Vy") rfl 0x8 0x2 (by decide) (by simp [encode]) (by simp [encode])

theorem xorReg (x y : RegIdx) : Statement (Instr.xorReg x y) :=
  of_nibble (m := "XOR_Vx__Vy") rfl 0x8 0x3 (by decide) (by simp [encode]) (by simp [encode])

theorem addReg (x y : RegIdx) : Statement (Instr.addReg x y) :=
  of_nibble (m := "ADD_Vx__Vy") rfl 0x8 0x4 (by decide) (by simp [encode]) (by simp [encode])

theorem subReg (x y : RegIdx) : Statement (Instr.subReg x y) :=
  of_nibble (m := "SUB_Vx__Vy") rfl 0x8 0x5 (by decide) (by simp [encode]) (by simp [encode])

theorem shr (x : RegIdx) : Statement (Instr.shr x) :=
  of_nibble (m := "SHR_Vx") rfl 0x8 0x6 (by decide) (by simp [encode]) (by simp [encode])

theorem subnReg (x y : RegIdx) : Statement (Instr.subnReg x y) :=
  of_nibble (m := "SUBN_Vx__Vy") rfl 0x8 0x7 (by decide) (by simp [encode]) (by simp [encode])

theorem shl (x : RegIdx) : Statement (Instr.shl x) :=
  of_nibble (m := "SHL_Vx") rfl 0x8 0xE (by decide) (by simp [encode]) (by simp [encode])

theorem sneReg (x y : RegIdx) : Statement (Instr.sneReg x y) :=
  of_top (m := "SNE_Vx__Vy") rfl 0x9 0 (by decide) (by simp [encode])

theorem ldI (nnn : Addr) : Statement (Instr.ldI nnn) :=
  of_top (m := "LD_I__addr") rfl 0xA 0 (by decide) (by simp [encode])

theorem jpV0 (nnn : Addr) : Statement (Instr.jpV0 nnn) :=
  of_top (m := "JP_V0__addr") rfl 0xB 0 (by decide) (by simp [encode])

theorem rnd (x : RegIdx) (kk : Byte) : Statement (Instr.rnd x kk) :=
  of_top (m := "RND_Vx__byte") rfl 0xC 0 (by decide) (by simp [encode])

theorem drw (x y : RegIdx) (n : Fin 16) : Statement (Instr.drw x y n) :=
  of_top (m := "DRW_Vx__Vy__n") rfl 0xD 0 (by decide) (by simp [encode])

theorem skp (x : RegIdx) : Statement (Instr.skp x) :=
  of_nibble (m := "SKP_Vx") rfl 0xE 0xE (by decide) (by simp [encode]) (by simp [encode, lowNibble_formatXkk])

theorem sknp (x : RegIdx) : Statement (Instr.sknp x) :=
  of_nibble (m := "SKNP_Vx") rfl 0xE 0x1 (by decide) (by simp [encode]) (by simp [encode, lowNibble_formatXkk])

theorem ldVxDt (x : RegIdx) : Statement (Instr.ldVxDt x) :=
  of_byte (m := "LD_Vx__DT") rfl 0x07 (by decide) (by simp [encode]) (by simp [encode])

theorem ldVxK (x : RegIdx) : Statement (Instr.ldVxK x) :=
  of_byte (m := "LD_Vx__K") rfl 0x0A (by decide) (by simp [encode]) (by simp [encode])

theorem ldDtVx (x : RegIdx) : Statement (Instr.ldDtVx x) :=
  of_byte (m := "LD_DT__Vx") rfl 0x15 (by decide) (by simp [encode]) (by simp [encode])

theorem ldStVx (x : RegIdx) : Statement (Instr.ldStVx x) :=
  of_byte (m := "LD_ST__Vx") rfl 0x18 (by decide) (by simp [encode]) (by simp [encode])

theorem addI (x : RegIdx) : Statement (Instr.addI x) :=
  of_byte (m := "ADD_I__Vx") rfl 0x1E (by decide) (by simp [encode]) (by simp [encode])

theorem ldF (x : RegIdx) : Statement (Instr.ldF x) :=
  of_byte (m := "LD_F__Vx") rfl 0x29 (by decide) (by simp [encode]) (by simp [encode])

theorem ldB (x : RegIdx) : Statement (Instr.ldB x) :=
  of_byte (m := "LD_B__Vx") rfl 0x33 (by decide) (by simp [encode]) (by simp [encode])

theorem storeRegs (x : RegIdx) : Statement (Instr.storeRegs x) :=
  of_byte (m := "LD__I___Vx") rfl 0x55 (by decide) (by simp [encode]) (by simp [encode])

theorem loadRegs (x : RegIdx) : Statement (Instr.loadRegs x) :=
  of_byte (m := "LD_Vx___I") rfl 0x65 (by decide) (by simp [encode]) (by simp [encode])

theorem nop0 : Statement Instr.nop0 :=
  of_top (m := "NOP_0") rfl 0x0 1 (by decide) (by decide)

theorem nop8 : Statement Instr.nop8 :=
  of_top (m := "NOP_8") rfl 0x8 1 (by decide) (by decide)

theorem nopE : Statement Instr.nopE :=
  of_top (m := "NOP_E") rfl 0xE 1 (by decide) (by decide)

theorem nopF : Statement Instr.nopF :=
  of_top (m := "NOP_F") rfl 0xF 1 (by decide) (by decide)

end Sys2Proof.Laws.EncodeRow
end

