-- ==== Sys2Proof/Tests/Slice0.lean ====
section
/-!
SUPPORT. The model's own tests. Each expected value is a row of 95_test_vectors.md or an example of the rule
named; a test is one cycle on a small state. Then the witnesses of the statements' hypotheses.
-/

namespace Sys2Proof.Tests

open Sys2Proof.Machine

/-- What a cycle answered, looked at: false when it answered no next state. -/
def after (o : Result) (p : State → Bool) : Bool :=
  match o with
  | .next t => p t
  | .fault _ => false
  | .refused _ => false

theorem exists_of_after {o : Result} {P : State → Prop} [DecidablePred P]
    (h : after o (fun t => decide (P t)) = true) : ∃ t, o = .next t ∧ P t := by
  cases o with
  | next t => exact ⟨t, rfl, of_decide_eq_true h⟩
  | fault r => cases h
  | refused r => cases h

/-- One cycle of `s` with the word `w` under its `pc`. -/
def cycleOf (s : State) (w : Nat) : Result := step (s.withFetchWord 16 w)

/-- The reset state. -/
abbrev s0 : State := State.reset

/-- A state with two registers set. -/
def regs2 (x : RegIdx) (a : Byte) (y : RegIdx) (b : Byte) : State := (s0.setReg x a).setReg y b

/-- A full call stack. -/
def fullStack : State := { s0 with sp := 16, dt := 5 }

/-! ## Well-formedness: each check refuses an ill-formed term -/

theorem test_image_of_3584_bytes_accepted : imageWellFormed (List.replicate 3584 0) = true := by
  rw [imageWellFormed, List.length_replicate]; decide

theorem test_image_of_3585_bytes_refused : imageWellFormed (List.replicate 3585 0) = false := by
  rw [imageWellFormed, List.length_replicate]; decide

theorem test_memory_out_of_order_refused : Memory.wf [(0x301, 1), (0x300, 1)] = false := by decide

theorem test_memory_beyond_address_space_refused : Memory.wf [(0x1000, 1)] = false := by decide

theorem test_memory_cell_at_reset_contents_refused : Memory.wf [(0x050, 0xF0)] = false := by decide

/-! ## Decoding: words written out from 30_encoding.md R82 -/

theorem test_decode_nibbles_0_to_4 :
    [decode 0x00E0, decode 0x00EE, decode 0x0000, decode 0x0ABE, decode 0x0123, decode 0x1ABC, decode 0x2300,
      decode 0x3A42, decode 0x4A42] =
    [.cls, .ret, .cls, .ret, .nop0, .jp 0xABC, .call 0x300, .seByte 0xA 0x42, .sneByte 0xA 0x42] := by decide

theorem test_decode_nibbles_5_to_7_and_9_to_D :
    [decode 0x5015, decode 0x6A77, decode 0x71FF, decode 0x9017, decode 0xAFFF, decode 0xB300, decode 0xC10F,
      decode 0xD015] =
    [.seReg 0 1, .ldByte 0xA 0x77, .addByte 1 0xFF, .sneReg 0 1, .ldI 0xFFF, .jpV0 0x300, .rnd 1 0x0F,
      .drw 0 1 5] := by decide

theorem test_decode_nibble_8 :
    [decode 0x8120, decode 0x8011, decode 0x8012, decode 0x8013, decode 0x8014, decode 0x8015, decode 0x8316,
      decode 0x8017, decode 0x831E, decode 0x8128, decode 0x812F] =
    [.ldReg 1 2, .orReg 0 1, .andReg 0 1, .xorReg 0 1, .addReg 0 1, .subReg 0 1, .shr 3, .subnReg 0 1, .shl 3,
      .nop8, .nop8] := by decide

theorem test_decode_nibbles_E_and_F :
    [decode 0xE0FE, decode 0xE001, decode 0xE09F, decode 0xF107, decode 0xF20A, decode 0xF015, decode 0xF018,
      decode 0xF01E, decode 0xF029, decode 0xF033, decode 0xF255, decode 0xF165, decode 0xF0FF] =
    [.skp 0, .sknp 0, .nopE, .ldVxDt 1, .ldVxK 2, .ldDtVx 0, .ldStVx 0, .addI 0, .ldF 0, .ldB 0, .storeRegs 2,
      .loadRegs 1, .nopF] := by decide

theorem test_encode_canonical_words :
    [encode .cls, encode .ret, encode (.seReg 0xA 0xB), encode (.shr 3), encode (.skp 0), encode (.sknp 0),
      encode (.storeRegs 2), encode .nop0] =
    [0x00E0, 0x00EE, 0x5AB0, 0x8306, 0xE09E, 0xE0A1, 0xF255, 0x0001] := by decide

theorem test_decode_table_word : decodeTableWord 16 0xD12F = some (.drw 1 2 0xF) := by decide

theorem test_decode_truncated :
    (match decodeBytes [0x12] with | .error .truncated => true | .ok _ => false) = true := by decide

/-! ## Fetch and the cycle (V-FETCH, V-DEC, V-FLT) -/

theorem test_fetch_wraps_at_the_top :
    after (cycleOf { s0 with pc := 0xFFF } 0x1234) (fun t => t.pc == 0x234 && t.opcode == 0x1234) = true := by decide

theorem test_pc_wraps_to_zero :
    after (cycleOf { s0 with pc := 0xFFE } 0x6A77) (fun t => t.reg 0xA == 0x77 && t.pc == 0x000) = true := by decide

theorem test_reset_runs_cls : after (step s0) (fun t => t.pc == 0x202 && t.mem == []) = true := by decide

theorem test_faulted_core_stands_still :
    after (step { s0 with fault := .stackUnderflow, dt := 5, keyInput := [1] })
      (fun t => t == { s0 with fault := .stackUnderflow, dt := 5, keyInput := [1] }) = true := by decide

theorem test_nop8_only_advances :
    after (cycleOf s0 0x800F) (fun t => t.pc == 0x202 && t.v == s0.v && t.fb == s0.fb) = true := by decide

theorem test_nopF_still_ticks :
    after (cycleOf { s0 with dt := 2, st := 1 } 0xF0FF)
      (fun t => t.pc == 0x202 && t.dt == 1 && t.st == 0) = true := by decide

theorem test_nop0_keeps_the_framebuffer :
    after (cycleOf (s0.setFb (Framebuffer.toggle s0.fb 3 3)) 0x0123)
      (fun t => t.pc == 0x202 && Framebuffer.pixel t.fb 3 3) = true := by decide

theorem test_nopE_ignores_the_keys :
    after (cycleOf { s0 with keys := 0xFFFF } 0xE0A2) (fun t => t.pc == 0x202) = true := by decide

/-! ## Control flow (V-CTL, V-FLT) -/

theorem test_jp : after (cycleOf s0 0x1ABC) (fun t => t.pc == 0xABC) = true := by decide

theorem test_call_sixteenth_is_legal :
    after (cycleOf { s0 with sp := 15 } 0x2300)
      (fun t => t.stack[15] == 0x202 && t.sp == 16 && t.pc == 0x300) = true := by decide

theorem test_call_overflows :
    after (cycleOf fullStack 0x2300)
      (fun t => t.fault == .stackOverflow && t.pc == 0x200 && t.sp == 16 && t.dt == 5) = true := by decide

theorem test_ret :
    after (cycleOf { s0 with sp := 2, stack := s0.stack.set 1 0x456 } 0x00EE)
      (fun t => t.pc == 0x456 && t.sp == 1 && t.stack[1] == 0x456) = true := by decide

theorem test_ret_underflows :
    after (cycleOf { s0 with dt := 5 } 0x00EE)
      (fun t => t.fault == .stackUnderflow && t.pc == 0x200 && t.sp == 0 && t.dt == 5) = true := by decide

theorem test_se_byte_taken : after (cycleOf (s0.setReg 0xA 0x42) 0x3A42) (fun t => t.pc == 0x204) = true := by decide

theorem test_se_byte_untaken : after (cycleOf (s0.setReg 0xA 0x41) 0x3A42) (fun t => t.pc == 0x202) = true := by decide

theorem test_sne_byte_untaken : after (cycleOf (s0.setReg 0xA 0x42) 0x4A42) (fun t => t.pc == 0x202) = true := by decide

theorem test_sne_byte_taken : after (cycleOf (s0.setReg 0xA 0x41) 0x4A42) (fun t => t.pc == 0x204) = true := by decide

theorem test_se_reg_taken : after (cycleOf (regs2 0 7 1 7) 0x5015) (fun t => t.pc == 0x204) = true := by decide

theorem test_sne_reg_taken : after (cycleOf (regs2 0 7 1 8) 0x9017) (fun t => t.pc == 0x204) = true := by decide

theorem test_jp_v0_masks : after (cycleOf (s0.setReg 0 0xFF) 0xBFFF) (fun t => t.pc == 0x0FE) = true := by decide

/-! ## Arithmetic and logic (V-ALU) -/

theorem test_ld_byte_vf : after (cycleOf s0 0x6F80) (fun t => t.reg 15 == 0x80 && t.pc == 0x202) = true := by decide

theorem test_add_byte_no_carry :
    after (cycleOf (regs2 0 0xFF 15 0x55) 0x7001) (fun t => t.reg 0 == 0x00 && t.reg 15 == 0x55) = true := by decide

theorem test_ld_reg :
    after (cycleOf (regs2 1 0x11 2 0x22) 0x8120) (fun t => t.reg 1 == 0x22 && t.reg 2 == 0x22) = true := by decide

theorem test_or_keeps_vf :
    after (cycleOf ((regs2 0 0xF0 1 0x0F).setReg 15 0x55) 0x8011)
      (fun t => t.reg 0 == 0xFF && t.reg 15 == 0x55) = true := by decide

theorem test_and_keeps_vf :
    after (cycleOf ((regs2 0 0xF0 1 0x3C).setReg 15 0x55) 0x8012)
      (fun t => t.reg 0 == 0x30 && t.reg 15 == 0x55) = true := by decide

theorem test_xor_keeps_vf :
    after (cycleOf ((regs2 0 0xF0 1 0x3C).setReg 15 0x55) 0x8013)
      (fun t => t.reg 0 == 0xCC && t.reg 15 == 0x55) = true := by decide

theorem test_add_255_is_no_carry :
    after (cycleOf (regs2 0 0x7F 1 0x80) 0x8014) (fun t => t.reg 0 == 0xFF && t.reg 15 == 0) = true := by decide

theorem test_add_to_vf_loses_the_carry :
    after (cycleOf (regs2 15 0xF0 1 0x20) 0x8F14) (fun t => t.reg 15 == 0x10) = true := by decide

theorem test_sub_borrow :
    after (cycleOf (regs2 0 0x05 1 0x07) 0x8015) (fun t => t.reg 0 == 0xFE && t.reg 15 == 0) = true := by decide

theorem test_sub_equal_is_no_borrow :
    after (cycleOf (s0.setReg 0 0x37) 0x8005) (fun t => t.reg 0 == 0x00 && t.reg 15 == 1) = true := by decide

theorem test_shr_ignores_vy :
    after (cycleOf (regs2 3 0x05 1 0xFF) 0x8316)
      (fun t => t.reg 3 == 0x02 && t.reg 1 == 0xFF && t.reg 15 == 1) = true := by decide

theorem test_shr_of_vf : after (cycleOf (s0.setReg 15 0x04) 0x8F06) (fun t => t.reg 15 == 0x02) = true := by decide

theorem test_subn_vf_as_operand :
    after (cycleOf (regs2 15 0x05 1 0x07) 0x8F17) (fun t => t.reg 15 == 0x02) = true := by decide

theorem test_subn_borrow :
    after (cycleOf (regs2 0 0x07 1 0x05) 0x8017) (fun t => t.reg 0 == 0xFE && t.reg 15 == 0) = true := by decide

theorem test_shl : after (cycleOf (s0.setReg 3 0x81) 0x830E) (fun t => t.reg 3 == 0x02 && t.reg 15 == 1) = true := by decide

/-! ## Address register and memory (V-IDX) -/

theorem test_ld_i : after (cycleOf s0 0xAFFF) (fun t => t.i == 0xFFF) = true := by decide

theorem test_add_i_wraps :
    after (cycleOf ((regs2 0 0xFF 15 0x55).setI 0xFF0) 0xF01E)
      (fun t => t.i == 0x0EF && t.reg 15 == 0x55) = true := by decide

theorem test_ld_f_digit : after (cycleOf (s0.setReg 0 0x0A) 0xF029) (fun t => t.i == 0x082) = true := by decide

theorem test_ld_f_full_byte : after (cycleOf (s0.setReg 0 0xFF) 0xF029) (fun t => t.i == 0x54B) = true := by decide

theorem test_ld_b_wraps :
    after (cycleOf ((s0.setReg 0 0xFF).setI 0xFFE) 0xF033)
      (fun t => [Memory.read t.mem 0xFFE, Memory.read t.mem 0xFFF, Memory.read t.mem 0x000] == [2, 5, 5] &&
        t.i == 0xFFE) = true := by decide

theorem test_store_regs_into_the_font_and_no_further :
    after (cycleOf ((regs2 0 0xAA 1 0xBB).setI 0x050) 0xF055)
      (fun t => Memory.read t.mem 0x050 == 0xAA && Memory.read t.mem 0x051 == 0x90 && Memory.wf t.mem) = true := by decide

theorem test_store_regs_all_sixteen_wrap :
    after (cycleOf ((regs2 7 0x17 15 0x1F).setI 0xFF8) 0xFF55)
      (fun t => Memory.read t.mem 0xFFF == 0x17 && Memory.read t.mem 0x007 == 0x1F && t.i == 0xFF8) = true := by decide

theorem test_load_regs_font :
    after (cycleOf (s0.setI 0x050) 0xFF65)
      (fun t => t.v.toList == [0xF0, 0x90, 0x90, 0x90, 0xF0, 0x20, 0x60, 0x20, 0x20, 0x70, 0xF0, 0x10, 0xF0, 0x80,
        0xF0, 0xF0]) = true := by decide

/-! ## Display (V-GFX) -/

theorem test_cls :
    after (cycleOf ((s0.setFb (Framebuffer.toggle s0.fb 31 63)).setReg 15 0x55) 0x00E0)
      (fun t => t.fb == s0.fb && t.reg 15 == 0x55) = true := by decide

theorem test_drw_wraps_in_both_directions :
    after (cycleOf ((regs2 0 0x3E 1 0x1E).setI 0x050) 0xD015)
      (fun t => [Framebuffer.pixel t.fb 30 62, Framebuffer.pixel t.fb 30 1, Framebuffer.pixel t.fb 31 63,
          Framebuffer.pixel t.fb 2 0, Framebuffer.pixel t.fb 1 0] == [true, true, false, true, false] &&
        t.reg 15 == 0) = true := by decide

theorem test_drw_collision :
    after (cycleOf (((s0.setMem [(0x300, 0xC0)]).setI 0x300).setFb (Framebuffer.toggle s0.fb 0 1)) 0xD011)
      (fun t => [Framebuffer.pixel t.fb 0 0, Framebuffer.pixel t.fb 0 1] == [true, false] && t.reg 15 == 1) = true := by
  decide

theorem test_fb_port :
    ((s0.setFb (Framebuffer.toggle s0.fb 1 3)).fbPort 67, s0.fbPort 67) = (0xFFFFFFFF, 0x00000000) := by decide

/-! ## Keypad, timers, random (V-KEY, V-TMR, V-RND) -/

theorem test_skp_low_four_bits :
    after (cycleOf { s0.setReg 0 0x1A with keyInput := [0x0400] } 0xE09E) (fun t => t.pc == 0x204) = true := by decide

theorem test_skp_other_keys :
    after (cycleOf { s0.setReg 0 0x05 with keyInput := [0xFFDF] } 0xE09E) (fun t => t.pc == 0x202) = true := by decide

theorem test_sknp : after (cycleOf (s0.setReg 0 0x05) 0xE0A1) (fun t => t.pc == 0x204) = true := by decide

theorem test_ld_k_waits :
    after (cycleOf { s0.setReg 2 0x77 with dt := 3 } 0xF20A)
      (fun t => t.pc == 0x200 && t.reg 2 == 0x77 && t.dt == 2) = true := by decide

theorem test_ld_k_lowest :
    after (cycleOf { s0 with dt := 3, keyInput := [0x0208, 0x0001] } 0xF20A)
      (fun t => t.pc == 0x202 && t.reg 2 == 3 && t.dt == 2 && t.keys == 0x0208 && t.keyInput == [0x0001]) = true := by
  decide

theorem test_ld_vx_dt_before_the_tick :
    after (cycleOf { s0 with dt := 4 } 0xF107) (fun t => t.reg 1 == 4 && t.dt == 3) = true := by decide

theorem test_ld_dt_ticks_in_the_same_cycle :
    after (cycleOf (s0.setReg 0 5) 0xF015) (fun t => t.dt == 4) = true := by decide

theorem test_ld_st_of_one_is_never_seen :
    after (cycleOf (s0.setReg 0 1) 0xF018) (fun t => t.soundPort == 0) = true := by decide

theorem test_rnd_masks (h : Config.randomByte 0 = 0xA7) :
    ∃ t, cycleOf s0 0xC10F = .next t ∧ t.reg 1 = 0x07 :=
  ⟨_, rfl, by change Config.randomByte 0 &&& 0x0F = 0x07; rw [h]; decide⟩

theorem test_rnd_draws_once : after (cycleOf s0 0xC000) (fun t => t.rng == 1 && t.pc == 0x202) = true := by decide

/-! ## Witnesses: a concrete state and operands that meet the hypotheses of each statement -/

theorem witness_SpecificRowsAreDisjoint :
    (⟨"SHL_Vx", 0xF00F, 0x800E, 0⟩ : OpcodeRow) ∈ specificRows ∧
      OpcodeRow.selects ⟨"SHL_Vx", 0xF00F, 0x800E, 0⟩ 0x8F1E := by decide

theorem witness_IgnoredBitsDoNotChangeDecoding :
    (topNibble 0x0000 = topNibble 0x0230 ∧ topNibble 0x0000 = 0x0 ∧ lowNibble 0x0000 = lowNibble 0x0230) ∧
    (topNibble 0x5015 = topNibble 0x5010 ∧ topNibble 0x5015 = 0x5 ∧ fieldX 0x5015 = fieldX 0x5010 ∧
      fieldY 0x5015 = fieldY 0x5010) ∧
    (topNibble 0xEF1E = topNibble 0xEF9E ∧ topNibble 0xEF1E = 0xE ∧ fieldX 0xEF1E = fieldX 0xEF9E ∧
      lowNibble 0xEF1E = lowNibble 0xEF9E) ∧
    (topNibble 0x83F6 = topNibble 0x8306 ∧ topNibble 0x83F6 = 0x8 ∧ lowNibble 0x83F6 = 0x6 ∧
      fieldX 0x83F6 = fieldX 0x8306 ∧ lowNibble 0x83F6 = lowNibble 0x8306) := by decide

/-- The premises of `StepRunsDecodedInstruction`, for an instruction that raises no fault. -/
theorem witness_StepRunsDecodedInstruction :
    s0.fault = .running ∧ decodeBytes [Memory.read s0.mem s0.pc, Memory.read s0.mem (s0.pc + 1)] = .ok (.cls, []) ∧
    ∃ t, exec .cls s0 = .next t ∧ t.fault = .running := ⟨rfl, rfl, exists_of_after (by decide)⟩

/-- The same for `CALL` on a full stack, which raises one. -/
theorem witness_StepRunsDecodedInstruction_fault :
    decodeBytes [0x23, 0x00] = .ok (.call 0x300, []) ∧
    ∃ t, exec (.call 0x300) fullStack = .next t ∧ t.fault ≠ .running := ⟨rfl, exists_of_after (by decide)⟩

theorem witness_FaultIsSticky : ({ s0 with fault := .stackOverflow } : State).fault ≠ .running := by decide

/-- The premises of `InvariantIsKept`, at the cycle that faults. -/
theorem witness_InvariantIsKept :
    (fullStack.withFetchWord 16 0x2300).Inv ∧ ∃ t, cycleOf fullStack 0x2300 = .next t ∧ t.fault ≠ .running :=
  ⟨⟨by decide, ⟨fun h => (by cases h), fun h => (by cases h)⟩⟩, exists_of_after (by decide)⟩

/-- The premises of `InvariantIsKept`, in a state that has already faulted. -/
theorem witness_InvariantIsKept_faulted :
    ({ fullStack.withFetchWord 16 0x2300 with fault := .stackOverflow } : State).Inv :=
  ⟨by decide, ⟨fun _ => ⟨rfl, 0x300, by decide⟩, fun h => (by cases h)⟩⟩

theorem witness_BootLoadsTheImage :
    (List.replicate 3584 (0 : Byte)).length ≤ 3584 ∧ 3584 < (List.replicate 3585 (0 : Byte)).length := by
  rw [List.length_replicate, List.length_replicate]; decide

theorem witness_TimersTickOncePerCycle :
    (∃ t, cycleOf (s0.setReg 0 1) 0xF015 = .next t ∧ t.fault = .running) ∧
    (∃ t, cycleOf { s0 with dt := 0, st := 255 } 0x6000 = .next t ∧ t.fault = .running) ∧
    (∃ t, cycleOf (s0.setReg 0 255) 0xF018 = .next t ∧ t.fault = .running) :=
  ⟨exists_of_after (by decide), exists_of_after (by decide), exists_of_after (by decide)⟩

/-- The premises of `FaultsArePrecise` and of both clauses of `StackBoundsFault`. -/
theorem witness_FaultsArePrecise :
    (decode (fetchWord (fullStack.withFetchWord 16 0x2300)) = .call 0x300 ∧ fullStack.sp.val = 16 ∧
      ∃ t, cycleOf fullStack 0x2300 = .next t ∧ t.fault ≠ .running) ∧
    (decode (fetchWord (s0.withFetchWord 16 0x00EE)) = .ret ∧ s0.sp.val = 0 ∧
      ∃ t, cycleOf s0 0x00EE = .next t ∧ t.fault ≠ .running) :=
  ⟨⟨by decide, rfl, exists_of_after (by decide)⟩, ⟨by decide, rfl, exists_of_after (by decide)⟩⟩

/-- The premises of the statements on who writes what (the stack, memory, the framebuffer, `I`, the timers, the
keys, `RNG`) and of `OtherInstructionsLeavePc`: `LD V0, 01` answers a next state and is none of their exceptions. -/
theorem witness_who_writes_what :
    (∃ t, exec (.ldByte 0 1) s0 = .next t) ∧ (∀ nnn, Instr.ldByte 0 1 ≠ .call nnn) ∧ Instr.ldByte 0 1 ≠ .ret ∧
    Instr.ldByte 0 1 ≠ .cls ∧ (∀ x y n, Instr.ldByte 0 1 ≠ .drw x y n) ∧ (∀ x, Instr.ldByte 0 1 ≠ .ldB x) ∧
    (∀ x, Instr.ldByte 0 1 ≠ .storeRegs x) ∧ (∀ nnn, Instr.ldByte 0 1 ≠ .ldI nnn) ∧
    (∀ x, Instr.ldByte 0 1 ≠ .addI x) ∧ (∀ x, Instr.ldByte 0 1 ≠ .ldF x) ∧ (∀ x, Instr.ldByte 0 1 ≠ .ldDtVx x) ∧
    (∀ x, Instr.ldByte 0 1 ≠ .ldStVx x) ∧ (∀ x kk, Instr.ldByte 0 1 ≠ .rnd x kk) ∧ ¬ WritesPc (.ldByte 0 1) :=
  ⟨⟨_, rfl⟩, by simp [WritesPc]⟩

theorem witness_RegisterFrameOfEveryInstruction :
    (∃ t, exec (.addReg 0 1) s0 = .next t) ∧ ¬ NamesAsDestination (.addReg 0 1) 14 ∧
    ¬ (WritesFlag (.addReg 0 1) ∧ (14 : RegIdx) = vF) :=
  ⟨⟨_, rfl⟩, (by decide : ¬ (14 : RegIdx) = 0), fun h => absurd h.2 (by decide)⟩

theorem witness_FlagIsZeroOrOne :
    (∃ t, exec (.shl 14) s0 = .next t) ∧ WritesFlag (.shl 14) ∧ ¬ NamesAsDestination (.shl 14) vF :=
  ⟨⟨_, rfl⟩, trivial, (by decide : ¬ vF = (14 : RegIdx))⟩

theorem witness_NoOpOnlyAdvancesAndTicks :
    (s0.withFetchWord 16 0xF0FF).fault = .running ∧
    (decode (fetchWord (s0.withFetchWord 16 0xF0FF))).isNop = true := by decide

/-- The words of the decoding clauses of the statements about one instruction. -/
theorem witness_decoding_clauses :
    topNibble 0x6AFF = 0x6 ∧ topNibble 0x1ABC = 0x1 ∧ topNibble 0x3A42 = 0x3 ∧ topNibble 0x4A42 = 0x4 ∧
    topNibble 0x5015 = 0x5 ∧ topNibble 0x9017 = 0x9 ∧ topNibble 0xAFFF = 0xA ∧
    (topNibble 0x8120 = 0x8 ∧ lowNibble 0x8120 = 0x0) ∧ (topNibble 0x0230 = 0x0 ∧ lowNibble 0x0230 = 0x0) ∧
    (topNibble 0xF107 = 0xF ∧ fieldKk 0xF107 = 0x07) := by decide

/-- The flag clauses `x ≠ vF` of `AddSetsCarry`, `SubtractSetsNoBorrow` and `ShiftsDeliverTheBitThatLeft`. -/
theorem witness_flag_clauses : (14 : RegIdx) ≠ vF := by decide

theorem witness_CallPushesAndJumps : ({ s0 with sp := 15 } : State).sp.val < 16 := by decide

theorem witness_ReturnPopsAndJumps : 0 < ({ s0 with sp := 1 } : State).sp.val ∧ 0 < fullStack.sp.val := by decide

/-- The premises of `CallThenReturnComesBack` (the source's S7), with the stack almost full. -/
theorem witness_CallThenReturnComesBack :
    let s := ({ s0 with sp := 15, mem := [(0x205, 0xEE)] } : State).withFetchWord 16 0x2204
    s.fault = .running ∧ s.sp.val < 16 ∧ decode (fetchWord s) = .call 0x204 ∧
    ∃ t, step s = .next t ∧ decode (fetchWord t) = .ret :=
  ⟨by decide, by decide, by decide, exists_of_after (by decide)⟩

/-- The premises of each clause of `SkipAdvancesFourInAll`. -/
theorem witness_SkipAdvancesFourInAll :
    [decode (fetchWord (s0.withFetchWord 16 0x3A42)), decode (fetchWord (s0.withFetchWord 16 0x4A42)),
      decode (fetchWord (s0.withFetchWord 16 0x5AB0)), decode (fetchWord (s0.withFetchWord 16 0x9AB0)),
      decode (fetchWord (s0.withFetchWord 16 0xEA9E)), decode (fetchWord (s0.withFetchWord 16 0xEAA1))] =
    [.seByte 0xA 0x42, .sneByte 0xA 0x42, .seReg 0xA 0xB, .sneReg 0xA 0xB, .skp 0xA, .sknp 0xA] ∧
    (∃ t, cycleOf s0 0x3A42 = .next t ∧ t.fault = .running) := ⟨by decide, exists_of_after (by decide)⟩

/-- The premise of the store statements. -/
theorem witness_canonical_memory : Memory.wf ([(0x300, 0xAB), (0xFFF, 0x01)] : Memory) = true := by decide

theorem witness_StoredBlockLoadsBack :
    Memory.wf (s0.setI 0xFF8).mem = true ∧
    (∃ t, exec (.storeRegs 15) (s0.setI 0xFF8) = .next t ∧ t.i = 0xFF8) ∧
    (∃ u', exec (.loadRegs 15) (s0.setI 0xFF8) = .next u' ∧ u'.i = 0xFF8) :=
  ⟨by decide, exists_of_after (by decide), exists_of_after (by decide)⟩

theorem witness_StoredWordIsFetchedNext :
    let s := ((regs2 0 0x12 1 0x0C).setI 0x202).withFetchWord 16 0xF155
    Memory.wf s.mem = true ∧ s.fault = .running ∧ decode (fetchWord s) = .storeRegs 1 ∧ s.i = s.pc + 2 ∧
    ∃ t, step s = .next t ∧ fetchWord t = 0x120C :=
  ⟨by decide, by decide, by decide, by decide, exists_of_after (by decide)⟩

/-- The premises of the clauses of `DrawInvertsExactlyTheCoveredPixels` and `DrawFlagIsCollision`: the sprite of
digit 0 covers pixel (0, 0), and does not cover the pixel in the last row. -/
theorem witness_DrawInvertsExactlyTheCoveredPixels :
    SpriteCovers (s0.setI 0x050) 0 1 5 0 0 ∧ ¬ SpriteCovers (s0.setI 0x050) 0 1 5 31 0 := by
  constructor
  · exact ⟨0, by decide, 0, by decide, by decide, by decide, by decide⟩
  · rintro ⟨row, hrow, col, -, -, h, -⟩
    have hz : (s0.setI 0x050).reg 1 = 0 := by decide
    rw [hz] at h
    have : (5 : Fin 16).val = 5 := rfl
    have : (31 : Fin 32).val = 31 := rfl
    simp at h
    omega

theorem witness_DrawFlagIsCollision :
    (∃ t, exec (.drw 0 1 5) ((s0.setI 0x050).setFb (Framebuffer.toggle s0.fb 0 0)) = .next t ∧
      Framebuffer.pixel t.fb 0 0 = false) ∧
    (∃ t, exec (.drw 0 1 0) s0 = .next t ∧ t.fb = s0.fb) :=
  ⟨exists_of_after (by decide), exists_of_after (by decide)⟩

theorem witness_DrawingTwiceRestores :
    ∃ t, exec (.drw 0 1 5) (s0.setI 0x050) = .next t ∧
      (t.reg 0 = (s0.setI 0x050).reg 0 ∧ t.reg 1 = (s0.setI 0x050).reg 1) := exists_of_after (by decide)

theorem witness_OutputPorts :
    s0.fault = .running ∧ ({ s0 with fault := .stackOverflow } : State).fault = .stackOverflow ∧
    ({ s0 with fault := .stackUnderflow } : State).fault = .stackUnderflow := by decide

/-- The premises of `KeyWaitLoadsTheLowestKey`, for the first key and for the last. -/
theorem witness_KeyWaitLoadsTheLowestKey :
    ((0xFFFF : KeyVector).getLsbD 0 = true ∧ ∀ j : Fin 16, j < 0 → (0xFFFF : KeyVector).getLsbD j.val = false) ∧
    ((0x8000 : KeyVector).getLsbD 15 = true ∧
      ∀ j : Fin 16, j < 15 → (0x8000 : KeyVector).getLsbD j.val = false) := by decide

theorem witness_KeyWaitStandsStill :
    let s := ({ s0 with keys := 1, keyInput := [0] } : State).withFetchWord 16 0xF20A
    s.fault = .running ∧ decode (fetchWord s) = .ldVxK 2 ∧ s.keyInput.headD s.keys = 0 := by decide

theorem witness_ReadDelayTimer :
    decode (fetchWord (s0.withFetchWord 16 0xF107)) = .ldVxDt 1 ∧
    ∃ t, cycleOf s0 0xF107 = .next t ∧ t.fault = .running := ⟨by decide, exists_of_after (by decide)⟩

theorem witness_JumpToSelfStandsStill :
    (s0.withFetchWord 16 0x1200).fault = .running ∧
    decode (fetchWord (s0.withFetchWord 16 0x1200)) = .jp (s0.withFetchWord 16 0x1200).pc := by decide

end Sys2Proof.Tests
end

namespace Sys2Proof.Machine

/-! ## What a handler can do

Everything `exec` can answer, said once, by the part of the state it writes. The whole-machine rules of
10_state.md (who writes what) and the invariant are case analyses of `Effect`. -/

theorem State.skipIf_eq_setPc (s : State) (c : Bool) :
    s.skipIf c = s.setPc (if c then s.pc + 2 else s.pc) := by
  cases c <;> rfl

/-- The effects of the 38 handlers, one constructor per kind of write: from `s` the instruction leads to the
state of the last argument. Values nobody's frame depends on (a sum, a drawn byte) are left free. -/
inductive Effect (s : State) : Instr → State → Prop where
  /-- The no-ops. -/
  | nothing {i} (hf : ¬ WritesFlag i) : Effect s i s
  /-- Loads, moves and the arithmetic without a flag. -/
  | result {i} (x : RegIdx) (b : Byte) (hx : NamesAsDestination i x) (hf : ¬ WritesFlag i) :
      Effect s i (s.setReg x b)
  /-- The five flag writers of the ALU. -/
  | flagAndResult {i} (x : RegIdx) (r : Bool × Byte) (hx : NamesAsDestination i x) (hf : WritesFlag i) :
      Effect s i (s.setFlagAndResult x r)
  /-- Skips, jumps and the retreat of the key wait. -/
  | jump {i} (a : Addr) (hi : WritesPc i) (hf : ¬ WritesFlag i) : Effect s i (s.setPc a)
  | push (nnn : Addr) (hsp : s.sp.val < 16) :
      Effect s (.call nnn)
        { s with stack := s.stack.set s.sp.val s.pc, sp := ⟨s.sp.val + 1, by omega⟩, pc := nnn }
  | pop (hsp : 0 < s.sp.val) :
      Effect s .ret { s with pc := s.stack[s.sp.val - 1], sp := ⟨s.sp.val - 1, by omega⟩ }
  | overflow (nnn : Addr) (hsp : s.sp.val = 16) :
      Effect s (.call nnn) { s with pc := s.pc - 2, fault := .stackOverflow }
  | underflow (hsp : s.sp.val = 0) : Effect s .ret { s with pc := s.pc - 2, fault := .stackUnderflow }
  | loadI (nnn a : Addr) : Effect s (.ldI nnn) (s.setI a)
  | addToI (x : RegIdx) (a : Addr) : Effect s (.addI x) (s.setI a)
  | glyph (x : RegIdx) (a : Addr) : Effect s (.ldF x) (s.setI a)
  | storeDigits (x : RegIdx) (a : Addr) (l : List Byte) :
      Effect s (.ldB x) (s.setMem (Memory.writeList s.mem a l))
  | storeBlock (x : RegIdx) (a : Addr) (l : List Byte) :
      Effect s (.storeRegs x) (s.setMem (Memory.writeList s.mem a l))
  | loadBlock (x : RegIdx) : Effect s (.loadRegs x) (s.loadBlock (blockRegs x))
  | clear (fb : Framebuffer) : Effect s .cls (s.setFb fb)
  | draw (x y : RegIdx) (n : Fin 16) (c : Bool) (fb : Framebuffer) :
      Effect s (.drw x y n) ((s.setReg vF (flagByte c)).setFb fb)
  | delayTimer (x : RegIdx) (b : Byte) : Effect s (.ldDtVx x) (s.setDt b)
  | soundTimer (x : RegIdx) (b : Byte) : Effect s (.ldStVx x) (s.setSt b)
  | random (x : RegIdx) (kk b : Byte) (r : Nat) : Effect s (.rnd x kk) ((s.setReg x b).setRng r)

theorem Effect.skipIf {s : State} {i : Instr} (c : Bool) (hi : WritesPc i) (hf : ¬ WritesFlag i) :
    Effect s i (s.skipIf c) :=
  s.skipIf_eq_setPc c ▸ .jump _ hi hf

theorem execCall_effect (nnn : Addr) (s : State) :
    ∃ t, execCall nnn s = .next t ∧ Effect s (.call nnn) t := by
  by_cases hsp : s.sp.val < 16
  · rw [execCall, State.pushPc_of_lt hsp]
    exact ⟨_, rfl, .push nnn hsp⟩
  · have hfull : s.sp.val = 16 := by omega
    rw [execCall, (State.pushPc_eq_none_iff s).mpr hfull]
    exact ⟨_, rfl, .overflow nnn hfull⟩

theorem execRet_effect (s : State) : ∃ t, execRet s = .next t ∧ Effect s .ret t := by
  by_cases hsp : 0 < s.sp.val
  · rw [execRet, State.popPc_of_pos hsp]
    exact ⟨_, rfl, .pop hsp⟩
  · have hempty : s.sp.val = 0 := by omega
    rw [execRet, (State.popPc_eq_none_iff s).mpr hempty]
    exact ⟨_, rfl, .underflow hempty⟩

theorem execLdVxK_effect (x : RegIdx) (s : State) :
    ∃ t, execLdVxK x s = .next t ∧ Effect s (.ldVxK x) t := by
  rw [execLdVxK]
  cases s.lowestKey with
  | some k => exact ⟨_, rfl, .result x _ rfl id⟩
  | none => exact ⟨_, rfl, .jump _ trivial id⟩

/-- Every instruction answers a next state, reached by one of the effects. -/
theorem exec_effect (i : Instr) (s : State) : ∃ t, exec i s = .next t ∧ Effect s i t := by
  cases i with
  | nop0 | nop8 | nopE | nopF => exact ⟨_, rfl, .nothing id⟩
  | ldByte x | addByte x | ldReg x | orReg x | andReg x | xorReg x | ldVxDt x =>
    exact ⟨_, rfl, .result x _ rfl id⟩
  | addReg x | subReg x | subnReg x | shr x | shl x => exact ⟨_, rfl, .flagAndResult x _ rfl trivial⟩
  | jp | jpV0 => exact ⟨_, rfl, .jump _ trivial id⟩
  | seByte | sneByte | seReg | sneReg | skp | sknp => exact ⟨_, rfl, .skipIf _ trivial id⟩
  | call nnn => exact execCall_effect nnn s
  | ret => exact execRet_effect s
  | ldI nnn => exact ⟨_, rfl, .loadI nnn _⟩
  | addI x => exact ⟨_, rfl, .addToI x _⟩
  | ldF x => exact ⟨_, rfl, .glyph x _⟩
  | ldB x => exact ⟨_, rfl, .storeDigits x _ _⟩
  | storeRegs x => exact ⟨_, rfl, .storeBlock x _ _⟩
  | loadRegs x => exact ⟨_, rfl, .loadBlock x⟩
  | cls => exact ⟨_, rfl, .clear _⟩
  | drw x y n => exact ⟨_, rfl, .draw x y n _ _⟩
  | ldDtVx x => exact ⟨_, rfl, .delayTimer x _⟩
  | ldStVx x => exact ⟨_, rfl, .soundTimer x _⟩
  | ldVxK x => exact execLdVxK_effect x s
  | rnd x kk => exact ⟨_, rfl, .random x kk _ _⟩

/-- What an instruction did, from the state it answered. -/
theorem effect_of_exec {i : Instr} {s t : State} (h : exec i s = .next t) : Effect s i t := by
  obtain ⟨t', ht', he⟩ := exec_effect i s
  obtain rfl : t' = t := Host.Outcome.next.inj (ht'.symm.trans h)
  exact he

/-! ## The invariant -/

/-- Memory is written through `Memory.writeList` alone, so it stays canonical. -/
theorem Effect.wf_mem {s t : State} {i : Instr} (he : Effect s i t) (hm : Memory.wf s.mem = true) :
    Memory.wf t.mem = true := by
  cases he with
  | storeDigits x a l | storeBlock x a l => exact Memory.wf_writeList hm a l
  | loadBlock x => rwa [State.loadBlock_mem]
  | _ => exact hm

/-- `FAULT` after a handler: as before, or raised by `CALL` on a full stack or by `RET` on an empty one, with
`pc` back at the instruction and nothing else written (60_exceptions.md R171, R172, R176). -/
theorem Effect.fault_cases {s t : State} {i : Instr} (he : Effect s i t) :
    t.fault = s.fault ∨
    (t = { s with pc := s.pc - 2, fault := .stackOverflow } ∧ s.sp.val = 16 ∧ ∃ nnn, i = .call nnn) ∨
    (t = { s with pc := s.pc - 2, fault := .stackUnderflow } ∧ s.sp.val = 0 ∧ i = .ret) := by
  cases he with
  | overflow nnn hsp => exact .inr (.inl ⟨rfl, hsp, nnn, rfl⟩)
  | underflow hsp => exact .inr (.inr ⟨rfl, hsp, rfl⟩)
  | loadBlock x => exact .inl (s.loadBlock_fault _)
  | _ => exact .inl rfl

/-- A running core's `FAULT` needs no explanation. -/
theorem State.faultExplained_of_running {s : State} (h : s.fault = .running) : s.FaultExplained := by
  simp [State.FaultExplained, h]

/-- The state a cycle abandoned by a fault ends in decodes to the faulting instruction again (R176). -/
theorem decode_of_abandoned (s : State) (f : FaultStatus) :
    decode (fetchWord { beginCycle s with
      pc := (beginCycle s).pc - 2, fault := f, keys := s.keys, keyInput := s.keyInput }) =
    decode (fetchWord s) :=
  congrArg decode (fetchWord_congr (beginCycle_mem s) (by simp))

/-- A cycle abandoned by a fault leaves the fault explained: the handler raised it itself, since the core ran. -/
theorem faultExplained_of_abandoned {s t : State} (hrun : s.fault = .running)
    (he : Effect (beginCycle s) (decode (fetchWord s)) t) (hfault : t.fault ≠ .running) :
    State.FaultExplained { t with keys := s.keys, keyInput := s.keyInput } := by
  obtain hkept | ⟨rfl, hsp, nnn, hi⟩ | ⟨rfl, hsp, hi⟩ := he.fault_cases
  · exact absurd (hkept.trans ((beginCycle_fault s).trans hrun)) hfault
  · exact ⟨fun _ => ⟨hsp, nnn, (decode_of_abandoned s .stackOverflow).trans hi⟩, nofun⟩
  · exact ⟨nofun, fun _ => ⟨hsp, (decode_of_abandoned s .stackUnderflow).trans hi⟩⟩

/-- Settles O11: a faulted core stands still, a whole cycle ends running, and an abandoned cycle explains the
fault it raised. -/
theorem invariantIsKept : Obligations.InvariantIsKept := by
  intro s u hinv hstep
  obtain ⟨-, rfl⟩ | ⟨hrun, t, hexec, hend⟩ := step_eq_next hstep
  · exact hinv
  · have he := effect_of_exec hexec
    have hmem : Memory.wf t.mem = true := he.wf_mem (by simpa using hinv.1)
    obtain ⟨hf, rfl⟩ | ⟨hf, rfl⟩ := hend
    · exact ⟨hmem, State.faultExplained_of_running hf⟩
    · exact ⟨hmem, faultExplained_of_abandoned hrun he hf⟩

/-! ## Who writes what -/

/-- Settles O19: the effects that write `STACK`, `SP` or `FAULT` are those of `CALL` and `RET`. -/
theorem onlyCallAndRetTouchTheStack : Obligations.OnlyCallAndRetTouchTheStack := by
  intro i s t h hcall hret
  cases effect_of_exec h with
  | push nnn | overflow nnn => exact absurd rfl (hcall nnn)
  | pop | underflow => exact absurd rfl hret
  | _ => simp

/-- Settles O20, by the effects that write the framebuffer or memory. -/
theorem whoWritesMemoryAndFramebuffer : Obligations.WhoWritesMemoryAndFramebuffer := by
  intro i s t h
  cases effect_of_exec h with
  | clear => exact ⟨fun hcls => absurd rfl hcls, fun _ _ _ => rfl⟩
  | draw x y n => exact ⟨fun _ hdrw => absurd rfl (hdrw x y n), fun _ _ _ => rfl⟩
  | storeDigits x => exact ⟨fun _ _ => rfl, fun hldB => absurd rfl (hldB x)⟩
  | storeBlock x => exact ⟨fun _ _ => rfl, fun _ hstore => absurd rfl (hstore x)⟩
  | _ => simp

/-- Settles O21, by the effects that write `I` or a timer. -/
theorem whoWritesAddressRegisterAndTimers : Obligations.WhoWritesAddressRegisterAndTimers := by
  intro i s t h
  cases effect_of_exec h with
  | loadI nnn => exact ⟨fun hldI => absurd rfl (hldI nnn), fun _ => rfl, fun _ => rfl⟩
  | addToI x => exact ⟨fun _ haddI => absurd rfl (haddI x), fun _ => rfl, fun _ => rfl⟩
  | glyph x => exact ⟨fun _ _ hldF => absurd rfl (hldF x), fun _ => rfl, fun _ => rfl⟩
  | delayTimer x => exact ⟨fun _ _ _ => rfl, fun hdt => absurd rfl (hdt x), fun _ => rfl⟩
  | soundTimer x => exact ⟨fun _ _ _ => rfl, fun _ => rfl, fun hst => absurd rfl (hst x)⟩
  | _ => simp

/-- Settles O22: no effect writes the keys or `OPCODE`, and that of `RND` alone writes `RNG`. -/
theorem keysAreNeverWrittenAndOnlyRndDraws : Obligations.KeysAreNeverWrittenAndOnlyRndDraws := by
  intro i s t h
  cases effect_of_exec h with
  | random x kk => exact ⟨rfl, rfl, rfl, fun hrnd => absurd rfl (hrnd x kk)⟩
  | _ => simp

/-- A register the instruction does not name is not the one it names. -/
theorem NamesAsDestination.ne {i : Instr} {x r : RegIdx} (hx : NamesAsDestination i x)
    (hr : ¬ NamesAsDestination i r) : x ≠ r := by
  rintro rfl
  exact hr hx

/-- Settles O23, by the effects that write a register. -/
theorem registerFrameOfEveryInstruction : Obligations.RegisterFrameOfEveryInstruction := by
  intro i s t h r hdest hflag
  cases effect_of_exec h with
  | result x b hx => exact s.reg_setReg_of_ne b (hx.ne hdest)
  | flagAndResult x res hx hf =>
    have hvF : vF ≠ r := fun e => hflag ⟨hf, e.symm⟩
    rw [State.reg_setFlagAndResult, if_neg (hx.ne hdest), if_neg hvF]
  | draw x y n c =>
    have hvF : vF ≠ r := fun e => hflag ⟨trivial, e.symm⟩
    exact s.reg_setReg_of_ne _ hvF
  | random x kk b => exact s.reg_setReg_of_ne b fun e => hdest e.symm
  | loadBlock x =>
    have hr : r ∉ blockRegs x := fun hmem => hdest ((mem_blockRegs x r).mp hmem)
    rw [State.reg_loadBlock, if_neg hr]
  | _ => rfl

theorem flagByte_eq_zero_or_one (c : Bool) : flagByte c = 0 ∨ flagByte c = 1 := by
  cases c
  · exact .inl rfl
  · exact .inr rfl

/-- Settles O24: the flag is a `flagByte`, and a result that lands elsewhere leaves it there. -/
theorem flagIsZeroOrOne : Obligations.FlagIsZeroOrOne := by
  intro i s t h hflag hdest
  cases effect_of_exec h with
  | flagAndResult x r hx =>
    rw [State.reg_setFlagAndResult, if_neg (hx.ne hdest), if_pos rfl]
    exact flagByte_eq_zero_or_one r.1
  | draw x y n c =>
    rw [State.reg_setFb, State.reg_setReg_self]
    exact flagByte_eq_zero_or_one c
  | nothing hf | result x b hx hf | jump a hi hf => exact absurd hflag hf
  | _ => exact False.elim hflag

/-- Settles O25, by the effects that write `pc`. -/
theorem otherInstructionsLeavePc : Obligations.OtherInstructionsLeavePc := by
  intro i s t h hpc
  cases effect_of_exec h with
  | jump a hi => exact absurd hi hpc
  | push | pop | overflow | underflow => exact absurd trivial hpc
  | _ => simp

/-! ## Reset -/

/-- Settles O12: the reset memory lists no cell, and the core runs. -/
theorem invariantHoldsAtReset : Obligations.InvariantHoldsAtReset :=
  ⟨rfl, State.faultExplained_of_running rfl⟩

theorem resetByte_of_not_font {k : Nat} (h : k < 0x050 ∨ 0x0A0 ≤ k) : resetByte k = 0 := by
  have hbase : fontBase.toNat = 0x050 := rfl
  have hlen : fontTable.length = 80 := rfl
  unfold resetByte
  split
  · exact List.getD_eq_default _ _ (by omega)
  · rfl

/-- Settles O13; the reset memory lists no cell, so a read gives `resetByte`. -/
theorem resetState : Obligations.ResetState := by
  have hreg (r : RegIdx) : State.reset.reg r = 0 := Vector.getElem_replicate _
  have hstack (k : Fin 16) : State.reset.stack[k] = 0 := Vector.getElem_replicate _
  have hmem (a : Addr) (ha : a.toNat < 0x050 ∨ 0x0A0 ≤ a.toNat) :
      Memory.read State.reset.mem a = 0 := resetByte_of_not_font ha
  have hkey (k : KeyIdx) : State.reset.keyDown k = false := BitVec.getLsbD_zero
  exact ⟨hreg, rfl, rfl, rfl, hstack, rfl, rfl, hmem, Framebuffer.pixel_clear, hkey, rfl, rfl⟩

/-- Settles O14: the 80 bytes, digit by digit. -/
theorem fontIsInPlaceAtReset : Obligations.FontIsInPlaceAtReset := by
  unfold Obligations.FontIsInPlaceAtReset
  decide

/-! ## The output ports -/

/-- Word `yy * 64 + xx` of the `fb` port is pixel (`xx`, `yy`). -/
theorem State.fbPort_eq (s : State) (yy : Fin 32) (xx : Fin 64) :
    s.fbPort ⟨yy.val * 64 + xx.val, by omega⟩ = if Framebuffer.pixel s.fb yy xx then fbOn else fbOff := by
  have hrow : (yy.val * 64 + xx.val) / 64 = yy.val := by omega
  have hcol : (yy.val * 64 + xx.val) % 64 = xx.val := by omega
  simp only [State.fbPort, hrow, hcol]

/-- Settles O53, by the row and column of a port word and the codes of `FAULT`. -/
theorem outputPorts : Obligations.OutputPorts := by
  intro s
  have hport (f : FaultStatus) (h : s.fault = f) : s.faultPort = f.code := congrArg FaultStatus.code h
  exact ⟨s.fbPort_eq, rfl, hport .running, hport .stackOverflow, hport .stackUnderflow⟩

end Sys2Proof.Machine

namespace Sys2Proof.Machine

/-! ## Fetch and self-modifying code -/

/-- Settles O7, by the two bytes of `wordOfBytes`. -/
theorem fetchIsBigEndian : Obligations.FetchIsBigEndian := fun _ =>
  ⟨highByte_wordOfBytes _ _, lowByte_wordOfBytes _ _⟩

/-- A block store puts `V[k]` at `EA(k)`, for every `k` up to and including `x` (43_index_memory.md R144). -/
theorem Memory.read_writeList_blockRegs {m : Memory} (h : Memory.wf m = true) (a : Addr) (f : RegIdx → Byte)
    {x k : RegIdx} (hk : k ≤ x) :
    Memory.read (Memory.writeList m a ((blockRegs x).map f)) (effectiveAddress a k.val) = f k := by
  have hlen : k.val < (blockRegs x).length := length_blockRegs x ▸ Nat.lt_succ_of_le hk
  have hoff : (effectiveAddress a k.val - a).toNat = k.val := by unfold effectiveAddress; bv_omega
  have hreg : (blockRegs x)[k.val] = k := Fin.ext (getElem_blockRegs x k.val hlen)
  have hsmall : ((blockRegs x).map f).length ≤ 4096 := by rw [List.length_map, length_blockRegs]; omega
  rw [Memory.read_writeList h _ _ hsmall, hoff, List.getD_eq_getElem _ _ (by simpa using hlen),
    List.getElem_map, hreg]

/-- The whole cycle of `LD [I], Vx`: it raises no fault, so the timer step follows the store. -/
theorem step_storeRegs {s : State} {x : RegIdx} (hrun : s.fault = .running)
    (hdec : decode (fetchWord s) = .storeRegs x) :
    step s = .next (timerStep
      ((beginCycle s).setMem (Memory.writeList s.mem s.i ((blockRegs x).map s.reg)))) := by
  have hexec : exec (.storeRegs x) (beginCycle s) =
      .next ((beginCycle s).setMem (Memory.writeList s.mem s.i ((blockRegs x).map s.reg))) := by
    simp [exec, execStoreRegs, funext (reg_beginCycle s)]
  rw [step_of_running hrun, hdec, hexec]
  exact finishCycle_next_running ((beginCycle_fault s).trans hrun)

/-- Settles O48: the cycle ends with `pc` at `I`, where the store has put `V[0]` and `V[1]`. -/
theorem storedWordIsFetchedNext : Obligations.StoredWordIsFetchedNext := by
  intro x s t hwf hrun hdec hx hi hstep
  rw [step_storeRegs hrun hdec] at hstep
  obtain rfl := Host.Outcome.next.inj hstep
  have h0 := Memory.read_writeList_blockRegs hwf s.i s.reg (k := 0) (Fin.zero_le x)
  have h1 := Memory.read_writeList_blockRegs hwf s.i s.reg (k := 1) hx
  have hfirst : effectiveAddress s.i (0 : RegIdx).val = s.pc + 2 := by simp [effectiveAddress, hi]
  have hsecond : effectiveAddress s.i (1 : RegIdx).val = s.pc + 2 + 1 := by simp [effectiveAddress, hi]
  rw [hfirst] at h0
  rw [hsecond] at h1
  exact congrArg₂ wordOfBytes h0 h1

end Sys2Proof.Machine

namespace Sys2Proof

/-! ## Encode, then decode -/

/-- The decoder reads back every operand the encoder writes (30_encoding.md R72, R73): the case of an instruction
is its format, and in the sub-tables its function code. -/
theorem decode_encode (i : Instr) : decode (encode i) = i := by
  cases i with
  | cls | ret | nop0 | nop8 | nopE | nopF => rfl
  | jp | call | ldI | jpV0 => simp [decode, encode]
  | seByte | sneByte | ldByte | addByte | rnd => simp [decode, encode]
  | seReg | sneReg | drw => simp [decode, encode]
  | ldReg | orReg | andReg | xorReg | addReg | subReg | shr | subnReg | shl =>
    simp [decode, decodeNibble8, encode]
  | skp | sknp => simp [decode, decodeNibbleE, encode, lowNibble_formatXkk]
  | ldVxDt | ldVxK | ldDtVx | ldStVx | addI | ldF | ldB | storeRegs | loadRegs =>
    simp [decode, decodeNibbleF, encode]

/-- Settles O1: the two bytes are those of the encoded word, which decodes to the instruction. -/
theorem decodeOfEncodedBytesGivesInstruction : Obligations.DecodeOfEncodedBytesGivesInstruction := by
  intro i rest
  calc decodeBytes (encodeBytes i ++ rest)
      = .ok (decode (wordOfBytes (highByte (encode i)) (lowByte (encode i))), rest) := rfl
    _ = .ok (i, rest) := by rw [wordOfBytes_bytes, decode_encode]

/-! ## The decoder by top nibble (30_encoding.md R74) -/

theorem decode_of_topNibble_0 {w : Word} (h : topNibble w = 0x0) : decode w = decodeNibble0 w := by
  simp [decode, h]

theorem decode_of_topNibble_5 {w : Word} (h : topNibble w = 0x5) :
    decode w = .seReg (fieldX w) (fieldY w) := by
  simp [decode, h]

theorem decode_of_topNibble_8 {w : Word} (h : topNibble w = 0x8) : decode w = decodeNibble8 w := by
  simp [decode, h]

theorem decode_of_topNibble_9 {w : Word} (h : topNibble w = 0x9) :
    decode w = .sneReg (fieldX w) (fieldY w) := by
  simp [decode, h]

theorem decode_of_topNibble_E {w : Word} (h : topNibble w = 0xE) : decode w = decodeNibbleE w := by
  simp [decode, h]

theorem decode_of_topNibble_F {w : Word} (h : topNibble w = 0xF) : decode w = decodeNibbleF w := by
  simp [decode, h]

/-- The nibble of the decoder's last arm. -/
theorem nibble_eq_F : ∀ t : BitVec 4,
    t ∉ [0x0#4, 0x1#4, 0x2#4, 0x3#4, 0x4#4, 0x5#4, 0x6#4, 0x7#4, 0x8#4, 0x9#4, 0xA#4, 0xB#4, 0xC#4, 0xD#4,
      0xE#4] → t = 0xF#4 := by decide

/-- A nibble selects one of the four sub-tables, or a handler directly. -/
theorem topNibble_cases (w : Word) :
    topNibble w = 0x0#4 ∨ topNibble w = 0x8#4 ∨ topNibble w = 0xE#4 ∨ topNibble w = 0xF#4 ∨
      topNibble w ∉ [0x0#4, 0x8#4, 0xE#4, 0xF#4] := by
  simp only [List.mem_cons, List.not_mem_nil, or_false]
  tauto

/-- Settles O5: under each nibble the decoder looks at the other fields alone. -/
theorem ignoredBitsDoNotChangeDecoding : Obligations.IgnoredBitsDoNotChangeDecoding := by
  intro w w' ht
  refine ⟨fun h0 hn => ?_, fun h59 hx hy => ?_, fun hE hx hn => ?_, fun h8 hshift hx hn => ?_⟩
  · rw [decode_of_topNibble_0 h0, decode_of_topNibble_0 (ht ▸ h0), decodeNibble0, decodeNibble0, hn]
  · obtain h5 | h9 := h59
    · rw [decode_of_topNibble_5 h5, decode_of_topNibble_5 (ht ▸ h5), hx, hy]
    · rw [decode_of_topNibble_9 h9, decode_of_topNibble_9 (ht ▸ h9), hx, hy]
  · rw [decode_of_topNibble_E hE, decode_of_topNibble_E (ht ▸ hE), decodeNibbleE, decodeNibbleE, hx, hn]
  · rw [decode_of_topNibble_8 h8, decode_of_topNibble_8 (ht ▸ h8)]
    obtain h6 | hE := hshift
    · simp [decodeNibble8, ← hn, h6, hx]
    · simp [decodeNibble8, ← hn, hE, hx]

/-- Settles O6: the decoder computes each of the sixteen words. -/
theorem sampleWordsDecode : Obligations.SampleWordsDecode := by
  unfold Obligations.SampleWordsDecode
  decide

/-! ## The no-op (30_encoding.md R79) -/

/-- The canonical word keeps the top nibble, also of a no-op. -/
theorem topNibble_encode_decode (w : Word) : topNibble (encode (decode w)) = topNibble w := by
  unfold decode
  split
  case h_1 h0 => rw [decodeNibble0]; split <;> exact h0.symm
  case h_9 h8 =>
    rw [decodeNibble8]
    split <;> simp [encode, h8]
    rfl -- the no-op's word is a literal
  case h_15 hE =>
    rw [decodeNibbleE]
    split <;> simp [encode, hE]
    rfl -- the no-op's word is a literal
  case h_16 =>
    have hF : topNibble w = 0xF := nibble_eq_F _ (by simp_all)
    rw [decodeNibbleF]
    split <;> simp [encode, hF]
    rfl -- the no-op's word is a literal
  all_goals simp [encode, *]

theorem isNop_decodeNibble0_iff (w : Word) :
    (decodeNibble0 w).isNop = true ↔ lowNibble w ∉ [0x0#4, 0xE#4] := by
  unfold decodeNibble0
  split <;> simp_all [Instr.isNop]

theorem isNop_decodeNibble8_iff (w : Word) :
    (decodeNibble8 w).isNop = true ↔
      lowNibble w ∉ [0x0#4, 0x1#4, 0x2#4, 0x3#4, 0x4#4, 0x5#4, 0x6#4, 0x7#4, 0xE#4] := by
  unfold decodeNibble8
  split <;> simp_all [Instr.isNop]

theorem isNop_decodeNibbleE_iff (w : Word) :
    (decodeNibbleE w).isNop = true ↔ lowNibble w ∉ [0x1#4, 0xE#4] := by
  unfold decodeNibbleE
  split <;> simp_all [Instr.isNop]

theorem isNop_decodeNibbleF_iff (w : Word) :
    (decodeNibbleF w).isNop = true ↔
      fieldKk w ∉ [0x07#8, 0x0A#8, 0x15#8, 0x18#8, 0x1E#8, 0x29#8, 0x33#8, 0x55#8, 0x65#8] := by
  unfold decodeNibbleF
  split <;> simp_all [Instr.isNop]

/-- A no-op has a row of its own, keyed by the top nibble alone. -/
theorem exists_fallbackRow_of_isNop {i : Instr} (h : i.isNop = true) :
    ∃ r ∈ fallbackRows, r.mnemonic = i.mnemonic ∧ r.mask = 0xF000 ∧
      r.pattern = topNibble (encode i) ++ 0#12 := by
  cases i with
  | nop0 | nop8 | nopE | nopF => decide
  | _ => cases h

theorem topNibble_encode_of_isNop {i : Instr} (h : i.isNop = true) :
    topNibble (encode i) ∈ [0x0#4, 0x8#4, 0xE#4, 0xF#4] := by
  cases i with
  | nop0 | nop8 | nopE | nopF => decide
  | _ => cases h

/-- The empty slots of sub-table 8, as R76 lists the taken ones and R79 the empty ones. -/
theorem emptySlot8_iff : ∀ n : BitVec 4,
    n ∉ [0x0#4, 0x1#4, 0x2#4, 0x3#4, 0x4#4, 0x5#4, 0x6#4, 0x7#4, 0xE#4] ↔
      n ∈ [0x8#4, 0x9#4, 0xA#4, 0xB#4, 0xC#4, 0xD#4, 0xF#4] := by decide

/-- Settles O4, by the sub-table; a word of any other nibble is no no-op. -/
theorem noOpSetIsExact : Obligations.NoOpSetIsExact := by
  intro w
  obtain h0 | h8 | hE | hF | hdirect := topNibble_cases w
  · simp [decode_of_topNibble_0 h0, isNop_decodeNibble0_iff, h0]
  · rw [decode_of_topNibble_8 h8, isNop_decodeNibble8_iff, emptySlot8_iff]
    simp [h8]
  · simp [decode_of_topNibble_E hE, isNop_decodeNibbleE_iff, hE]
  · simp [decode_of_topNibble_F hF, isNop_decodeNibbleF_iff, hF]
  · have hnop : (decode w).isNop ≠ true := fun h =>
      hdirect (topNibble_encode_decode w ▸ topNibble_encode_of_isNop h)
    simp only [List.mem_cons, List.not_mem_nil, or_false, not_or] at hdirect
    simp [hnop, hdirect]

/-! ## The opcode map: the rows a word selects

A row's pattern is itself a word that selects the row, and which instruction a word decodes to, operands apart,
depends only on the bits the row's mask looks at. So a word decodes to the mnemonic of its specific row. -/

theorem topNibble_and (w m : Word) : topNibble (w &&& m) = topNibble w &&& topNibble m :=
  BitVec.extractLsb'_and

theorem lowNibble_and (w m : Word) : lowNibble (w &&& m) = lowNibble w &&& lowNibble m :=
  BitVec.extractLsb'_and

theorem fieldKk_and (w m : Word) : fieldKk (w &&& m) = fieldKk w &&& fieldKk m :=
  BitVec.extractLsb'_and

theorem mnemonic_decodeNibble8_congr {w w' : Word} (hn : lowNibble w = lowNibble w') :
    (decodeNibble8 w).mnemonic = (decodeNibble8 w').mnemonic := by
  rw [decodeNibble8, decodeNibble8, hn]
  split <;> rfl

theorem mnemonic_decodeNibbleE_congr {w w' : Word} (hn : lowNibble w = lowNibble w') :
    (decodeNibbleE w).mnemonic = (decodeNibbleE w').mnemonic := by
  rw [decodeNibbleE, decodeNibbleE, hn]
  split <;> rfl

theorem mnemonic_decodeNibbleF_congr {w w' : Word} (hk : fieldKk w = fieldKk w') :
    (decodeNibbleF w).mnemonic = (decodeNibbleF w').mnemonic := by
  rw [decodeNibbleF, decodeNibbleF, hk]
  split <;> rfl

/-- The two-level dispatch (R74 to R78): the mnemonic depends on the top nibble and, in a sub-table, on its key. -/
theorem mnemonic_decode_congr {w w' : Word} (ht : topNibble w = topNibble w')
    (hn : topNibble w' ∈ [0x0#4, 0x8#4, 0xE#4] → lowNibble w = lowNibble w')
    (hk : topNibble w' = 0xF → fieldKk w = fieldKk w') :
    (decode w).mnemonic = (decode w').mnemonic := by
  unfold decode
  rw [ht]
  split
  case h_1 h0 => rw [decodeNibble0, decodeNibble0, hn (by simp [h0])]
  case h_9 h8 => exact mnemonic_decodeNibble8_congr (hn (by simp [h8]))
  case h_15 hE => exact mnemonic_decodeNibbleE_congr (hn (by simp [hE]))
  case h_16 => exact mnemonic_decodeNibbleF_congr (hk (nibble_eq_F _ (by simp_all)))
  all_goals rfl

/-- The mask of a specific row covers what the decoder looks at under the row's nibble. -/
theorem mask_of_mem_specificRows : ∀ r ∈ specificRows, topNibble r.mask = BitVec.allOnes 4 ∧
    (topNibble r.pattern ∈ [0x0#4, 0x8#4, 0xE#4] → lowNibble r.mask = BitVec.allOnes 4) ∧
    (topNibble r.pattern = 0xF → fieldKk r.mask = BitVec.allOnes 8) := by decide

theorem mnemonic_decode_pattern : ∀ r ∈ specificRows, (decode r.pattern).mnemonic = r.mnemonic := by decide

theorem mnemonic_decode_of_selects {r : OpcodeRow} {w : Word} (hr : r ∈ specificRows) (hw : r.selects w) :
    (decode w).mnemonic = r.mnemonic := by
  obtain ⟨htop, hlow, hbyte⟩ := mask_of_mem_specificRows r hr
  have ht : topNibble r.pattern = topNibble w := by
    rw [← hw, topNibble_and, htop, BitVec.and_allOnes]
  have hn (h : topNibble r.pattern ∈ [0x0#4, 0x8#4, 0xE#4]) : lowNibble r.pattern = lowNibble w := by
    rw [← hw, lowNibble_and, hlow h, BitVec.and_allOnes]
  have hk (h : topNibble r.pattern = 0xF) : fieldKk r.pattern = fieldKk w := by
    rw [← hw, fieldKk_and, hbyte h, BitVec.and_allOnes]
  calc (decode w).mnemonic
      = (decode r.pattern).mnemonic :=
        mnemonic_decode_congr ht.symm (fun h => (hn h).symm) (fun h => (hk h).symm)
    _ = r.mnemonic := mnemonic_decode_pattern r hr

theorem nodup_mnemonics : (opcodeRows.map OpcodeRow.mnemonic).Nodup := by decide

theorem eq_of_mnemonic_eq {r r' : OpcodeRow} (hr : r ∈ opcodeRows) (hr' : r' ∈ opcodeRows)
    (h : r.mnemonic = r'.mnemonic) : r = r' :=
  List.inj_on_of_nodup_map nodup_mnemonics hr hr' h

/-- Settles O3: two specific rows a word selects both bear the mnemonic the word decodes to. -/
theorem specificRowsAreDisjoint : Obligations.SpecificRowsAreDisjoint := by
  refine ⟨rfl, fun w r r' hr hr' hw hw' => ?_⟩
  have hname : r.mnemonic = r'.mnemonic :=
    (mnemonic_decode_of_selects hr hw).symm.trans (mnemonic_decode_of_selects hr' hw')
  exact eq_of_mnemonic_eq (List.mem_append_left _ hr) (List.mem_append_left _ hr') hname

/-! ## The opcode map: every word has its row -/

theorem selects_of_maskF000 {r : OpcodeRow} {w : Word} (hmask : r.mask = 0xF000)
    (hpattern : r.pattern = topNibble w ++ 0#12) : r.selects w := by
  rw [OpcodeRow.selects, hmask, hpattern]
  exact (and_F000_eq_iff w _).mpr rfl

theorem selects_of_maskF00F {r : OpcodeRow} {w : Word} (hmask : r.mask = 0xF00F)
    (hpattern : r.pattern = topNibble w ++ 0#8 ++ lowNibble w) : r.selects w := by
  rw [OpcodeRow.selects, hmask, hpattern]
  exact (and_F00F_eq_iff w _ _).mpr ⟨rfl, rfl⟩

theorem selects_of_maskF0FF {r : OpcodeRow} {w : Word} (hmask : r.mask = 0xF0FF)
    (hpattern : r.pattern = topNibble w ++ 0#4 ++ fieldKk w) : r.selects w := by
  rw [OpcodeRow.selects, hmask, hpattern]
  exact (and_F0FF_eq_iff w _ _).mpr ⟨rfl, rfl⟩

/-- A word whose low nibble is among the keys of its sub-table selects a row. -/
theorem exists_specificRow_of_lowNibble {w : Word} {t : BitVec 4} {keys : List (BitVec 4)}
    (hrows : ∀ n ∈ keys, ∃ r ∈ specificRows, r.mask = 0xF00F ∧ r.pattern = t ++ 0#8 ++ n)
    (ht : topNibble w = t) (hn : lowNibble w ∈ keys) : ∃ r ∈ specificRows, r.selects w := by
  obtain ⟨r, hr, hmask, hpattern⟩ := hrows _ hn
  exact ⟨r, hr, selects_of_maskF00F hmask (ht ▸ hpattern)⟩

theorem byteRows_of_keys : ∀ kk ∈ [0x07#8, 0x0A#8, 0x15#8, 0x18#8, 0x1E#8, 0x29#8, 0x33#8, 0x55#8, 0x65#8],
    ∃ r ∈ specificRows, r.mask = 0xF0FF ∧ r.pattern = 0xF#4 ++ 0#4 ++ kk := by decide

theorem directRows_of_nibble : ∀ t : BitVec 4, t ∉ [0x0#4, 0x8#4, 0xE#4, 0xF#4] →
    ∃ r ∈ specificRows, r.mask = 0xF000 ∧ r.pattern = t ++ 0#12 := by decide

/-- A word that is no no-op has a specific row. -/
theorem exists_specificRow_of_not_isNop {w : Word} (h : ¬ (decode w).isNop = true) :
    ∃ r ∈ specificRows, r.selects w := by
  obtain h0 | h8 | hE | hF | hdirect := topNibble_cases w
  · rw [decode_of_topNibble_0 h0, isNop_decodeNibble0_iff, not_not] at h
    exact exists_specificRow_of_lowNibble (by decide) h0 h
  · rw [decode_of_topNibble_8 h8, isNop_decodeNibble8_iff, not_not] at h
    exact exists_specificRow_of_lowNibble (by decide) h8 h
  · rw [decode_of_topNibble_E hE, isNop_decodeNibbleE_iff, not_not] at h
    exact exists_specificRow_of_lowNibble (by decide) hE h
  · rw [decode_of_topNibble_F hF, isNop_decodeNibbleF_iff, not_not] at h
    obtain ⟨r, hr, hmask, hpattern⟩ := byteRows_of_keys _ h
    exact ⟨r, hr, selects_of_maskF0FF hmask (hF ▸ hpattern)⟩
  · obtain ⟨r, hr, hmask, hpattern⟩ := directRows_of_nibble _ hdirect
    exact ⟨r, hr, selects_of_maskF000 hmask hpattern⟩

/-- Every word selects the row of the instruction it decodes to. -/
theorem exists_row_of_decode (w : Word) :
    ∃ r ∈ opcodeRows, r.mnemonic = (decode w).mnemonic ∧ r.selects w := by
  by_cases hnop : (decode w).isNop = true
  · obtain ⟨r, hr, hname, hmask, hpattern⟩ := exists_fallbackRow_of_isNop hnop
    rw [topNibble_encode_decode] at hpattern
    exact ⟨r, List.mem_append_right _ hr, hname, selects_of_maskF000 hmask hpattern⟩
  · obtain ⟨r, hr, hw⟩ := exists_specificRow_of_not_isNop hnop
    exact ⟨r, List.mem_append_left _ hr, (mnemonic_decode_of_selects hr hw).symm, hw⟩

theorem priority_of_mem_specificRows : ∀ r ∈ specificRows, r.priority = 0 := by decide

theorem priority_of_mem_fallbackRows : ∀ r ∈ fallbackRows, r.priority = 1 := by decide

/-- The fallback rows have one mask and distinct patterns, so a word selects at most one of them. -/
theorem fallbackRows_disjoint {r r' : OpcodeRow} {w : Word} (hr : r ∈ fallbackRows) (hr' : r' ∈ fallbackRows)
    (hw : r.selects w) (hw' : r'.selects w) : r = r' := by
  have hmask : ∀ r ∈ fallbackRows, r.mask = 0xF000 := by decide
  have hinj : ∀ r ∈ fallbackRows, ∀ r' ∈ fallbackRows, r.pattern = r'.pattern → r = r' := by decide
  refine hinj r hr r' hr' ?_
  rw [← hw, ← hw', hmask r hr, hmask r' hr']

/-- Settles O2: another specific row the word selects would bear the same mnemonic, and a fallback row has the
higher number unless the word's own row is that fallback row. -/
theorem decoderFollowsOpcodeMap : Obligations.DecoderFollowsOpcodeMap := by
  intro w
  obtain ⟨r, hr, hname, hw⟩ := exists_row_of_decode w
  refine ⟨r, hr, hname, hw, fun r' hr' hw' => ?_⟩
  obtain hspecific' | hfallback' := List.mem_append.mp hr'
  · exact .inl (eq_of_mnemonic_eq hr' hr ((mnemonic_decode_of_selects hspecific' hw').symm.trans hname.symm))
  obtain hspecific | hfallback := List.mem_append.mp hr
  · right
    rw [priority_of_mem_specificRows r hspecific, priority_of_mem_fallbackRows r' hfallback']
    decide
  · exact .inl (fallbackRows_disjoint hfallback' hfallback hw' hw)

end Sys2Proof

namespace Sys2Proof.Machine

/-! ## Totality of the step -/

/-- Settles O10: a faulted core stands still, and in a running one the handler answers a next state, which the
cycle then finishes. -/
theorem everyCycleAnswersANextState : Obligations.EveryCycleAnswersANextState := by
  intro s
  by_cases hrun : s.fault = .running
  · obtain ⟨t, hexec, -⟩ := exec_effect (decode (fetchWord s)) (beginCycle s)
    rw [step_of_running hrun, hexec]
    by_cases ht : t.fault = .running
    · exact ⟨_, finishCycle_next_running ht⟩
    · exact ⟨_, finishCycle_next_faulted ht⟩
  · exact ⟨s, step_of_faulted hrun⟩

end Sys2Proof.Machine

namespace Sys2Proof.Machine

/-! ## The cycle around the handler

What the handler sees and what follows it, so that a statement about a cycle needs only the handler's answer. -/

theorem tickedFrom_tick (b : Byte) : TickedFrom b (tick b) := by
  unfold TickedFrom tick
  split
  case isTrue h0 => rw [h0]; rfl
  case isFalse h0 => bv_omega

/-- The state the handler sees (40_cycle_and_dispatch.md R93), as one update of the state the cycle began in. -/
theorem beginCycle_eq (s : State) : beginCycle s = { s with
    pc := s.pc + 2
    opcode := fetchWord s
    keys := s.keyInput.headD s.keys
    keyInput := s.keyInput.tail } := by
  cases h : s.keyInput <;> simp [beginCycle, sampleKeys, h]

/-- The cycle of a handler that raises no fault. -/
theorem step_of_exec_running {s t : State} {i : Instr} (hrun : s.fault = .running)
    (hdec : decode (fetchWord s) = i) (hexec : exec i (beginCycle s) = .next t) (ht : t.fault = .running) :
    step s = .next (timerStep t) := by
  rw [step_of_running hrun, hdec, hexec, finishCycle_next_running ht]

/-- The cycle of a handler that raises a fault. -/
theorem step_of_exec_faulted {s t : State} {i : Instr} (hrun : s.fault = .running)
    (hdec : decode (fetchWord s) = i) (hexec : exec i (beginCycle s) = .next t) (ht : t.fault ≠ .running) :
    step s = .next { t with keys := s.keys, keyInput := s.keyInput } := by
  rw [step_of_running hrun, hdec, hexec, finishCycle_next_faulted ht]

/-- Settles O8: the bytes at `pc` are the fetched word, and the cycle ends as the handler's `FAULT` says. -/
theorem stepRunsDecodedInstruction : Obligations.StepRunsDecodedInstruction := by
  intro s t i hrun hbytes hexec
  have hdec : decode (fetchWord s) = i := congrArg Prod.fst (Except.ok.inj hbytes)
  have hbegin : exec i (beginCycle s) = .next t := (congrArg (exec i) (beginCycle_eq s)).trans hexec
  refine ⟨fun ht => ?_, step_of_exec_faulted hrun hdec hbegin⟩
  exact ⟨timerStep t, step_of_exec_running hrun hdec hbegin ht, rfl, tickedFrom_tick t.dt, tickedFrom_tick t.st⟩

/-! ## The no-op -/

theorem exec_of_isNop {i : Instr} (h : i.isNop = true) (s : State) : exec i s = .next s := by
  cases i with
  | nop0 | nop8 | nopE | nopF => rfl
  | _ => cases h

/-- Settles O26: the handler answers the state it sees, which the timer step then ends. -/
theorem noOpOnlyAdvancesAndTicks : Obligations.NoOpOnlyAdvancesAndTicks := by
  refine ⟨rfl, fun s => ⟨rfl, rfl, rfl, rfl⟩, fun s hrun hnop => ?_⟩
  have hstep := step_of_exec_running hrun rfl (exec_of_isNop hnop _) ((beginCycle_fault s).trans hrun)
  rw [beginCycle_eq] at hstep
  exact ⟨_, hstep, tickedFrom_tick s.dt, tickedFrom_tick s.st, rfl⟩

/-! ## Runs of the core -/

/-- A run that begins with a cycle to `u` goes on from `u`. -/
theorem run_succ_of_step {s u : State} (h : step s = .next u) (k : Nat) :
    Sys2Proof.core.run (k + 1) s = Sys2Proof.core.run k u := by
  have hcore : Sys2Proof.core.step s = .next u := h
  simp only [Host.Core.run, hcore]

/-- Settles O9, by induction on the number of cycles, each of which answers the same state. -/
theorem faultIsSticky : Obligations.FaultIsSticky := by
  intro s k hfault
  induction k with
  | zero => rfl
  | succ k ih => exact (run_succ_of_step (step_of_faulted hfault) k).trans ih

/-- One cycle on at a `JP` to its own address: a timer tick, with `pc` where it was (40_cycle_and_dispatch.md R98). -/
def State.standStill (s : State) : State := { s with
  dt := tick s.dt
  st := tick s.st
  opcode := fetchWord s
  keys := s.keyInput.headD s.keys
  keyInput := s.keyInput.tail }

/-- The cycle of a `JP` to its own address: the jump undoes the pre-advance of `pc`. -/
theorem step_jumpToSelf {s : State} (hrun : s.fault = .running) (hdec : decode (fetchWord s) = .jp s.pc) :
    step s = .next s.standStill := by
  have hexec : exec (.jp s.pc) (beginCycle s) = .next ((beginCycle s).setPc s.pc) := rfl
  rw [step_of_exec_running hrun hdec hexec ((beginCycle_fault s).trans hrun), beginCycle_eq]
  rfl

/-- Settles O60, by induction on the number of cycles: the first one ends at the same `JP`, each timer one tick
lower. -/
theorem jumpToSelfStandsStill : Obligations.JumpToSelfStandsStill := by
  intro s k hrun hdec
  induction k generalizing s with
  | zero => exact ⟨s, rfl, rfl, rfl, rfl⟩
  | succ k ih =>
    have hdtTick : s.standStill.dt.toNat = s.dt.toNat - 1 := tickedFrom_tick s.dt
    have hstTick : s.standStill.st.toNat = s.st.toNat - 1 := tickedFrom_tick s.st
    obtain ⟨t, hkrun, hframe, hdt, hst⟩ := ih s.standStill hrun hdec
    refine ⟨t, (run_succ_of_step (step_jumpToSelf hrun hdec) k).trans hkrun, hframe, ?_, ?_⟩
    · rw [hdt, hdtTick, Nat.sub_sub, Nat.add_comm]
    · rw [hst, hstTick, Nat.sub_sub, Nat.add_comm]

end Sys2Proof.Machine

namespace Sys2Proof

/-! ## The decoder on jumps and skips of a byte -/

theorem decode_of_topNibble_1 {w : Word} (h : topNibble w = 0x1) : decode w = .jp (fieldNnn w) := by
  simp [decode, h]

theorem decode_of_topNibble_3 {w : Word} (h : topNibble w = 0x3) :
    decode w = .seByte (fieldX w) (fieldKk w) := by
  simp [decode, h]

theorem decode_of_topNibble_4 {w : Word} (h : topNibble w = 0x4) :
    decode w = .sneByte (fieldX w) (fieldKk w) := by
  simp [decode, h]

end Sys2Proof

namespace Sys2Proof.Machine

/-! ## Call and return -/

/-- `CALL` with room on the stack, as one update of the state its handler sees (41_control_flow.md R102). -/
theorem exec_call_of_lt (nnn : Addr) {s : State} (h : s.sp.val < 16) :
    exec (.call nnn) s = .next
      { s with stack := s.stack.set s.sp.val s.pc, sp := ⟨s.sp.val + 1, by omega⟩, pc := nnn } := by
  rw [exec, execCall, State.pushPc_of_lt h]
  rfl

/-- `RET` with a live entry, as one update of the state its handler sees (41_control_flow.md R100). -/
theorem exec_ret_of_pos {s : State} (h : 0 < s.sp.val) :
    exec .ret s = .next { s with pc := s.stack[s.sp.val - 1], sp := ⟨s.sp.val - 1, by omega⟩ } := by
  rw [exec, execRet, State.popPc_of_pos h]

/-- Settles O36: the push writes the entry at `SP` and no other. -/
theorem callPushesAndJumps : Obligations.CallPushesAndJumps := by
  intro nnn s hsp
  refine ⟨_, exec_call_of_lt nnn hsp, rfl, rfl, rfl, fun k => ?_⟩
  simp only [Fin.getElem_fin, Vector.getElem_set, eq_comm (a := k.val)]

/-- Settles O37: the pop reads the entry at the new `SP`. -/
theorem returnPopsAndJumps : Obligations.ReturnPopsAndJumps := by
  intro s hsp
  refine ⟨_, exec_ret_of_pos hsp, rfl, Nat.sub_add_cancel hsp, fun k hk => ?_⟩
  simp only [Fin.getElem_fin, hk]

/-- Settles O38: the cycle of the `CALL` leaves `pc + 2` in the entry at the old `SP`, and that of the `RET` pops
this entry. -/
theorem callThenReturnComesBack : Obligations.CallThenReturnComesBack := by
  intro s t nnn hrun hsp hcall hstep hret
  have hroom : (beginCycle s).sp.val < 16 := by rwa [beginCycle_sp]
  obtain ⟨c, hexecCall, hcframe, -, hcsp, hcstack⟩ := callPushesAndJumps nnn (beginCycle s) hroom
  have hcrun : c.fault = .running := by rw [hcframe]; exact (beginCycle_fault s).trans hrun
  obtain rfl : timerStep c = t :=
    Host.Outcome.next.inj ((step_of_exec_running hrun hcall hexecCall hcrun).symm.trans hstep)
  rw [beginCycle_sp] at hcsp
  have hlive : 0 < (beginCycle (timerStep c)).sp.val := by
    rw [beginCycle_sp, timerStep_sp, hcsp]; exact Nat.succ_pos _
  obtain ⟨r, hexecRet, hrframe, hrsp, hrpc⟩ := returnPopsAndJumps (beginCycle (timerStep c)) hlive
  have hrrun : r.fault = .running := by rw [hrframe]; exact (beginCycle_fault _).trans hcrun
  have hspBack : r.sp = s.sp := by
    rw [beginCycle_sp, timerStep_sp, hcsp] at hrsp
    exact Fin.ext (Nat.succ.inj hrsp)
  have hpcBack : r.pc = s.pc + 2 := by
    rw [hrpc ⟨s.sp.val, hsp⟩ (congrArg Fin.val hspBack.symm), beginCycle_stack, timerStep_stack, hcstack]
    simp
  refine ⟨timerStep r, step_of_exec_running hcrun hret hexecRet hrrun, hpcBack, hspBack, ?_, ?_, hrrun⟩
  · rw [timerStep_v, hrframe, hcframe]; simp
  · rw [timerStep_mem, hrframe, hcframe]; simp

/-! ## Jumps -/

/-- Settles O34, by the decoder's arm and the `pc` update of the handler. -/
theorem jumpSetsPc : Obligations.JumpSetsPc :=
  ⟨fun _ => decode_of_topNibble_1, fun _ _ => ⟨_, rfl, rfl, rfl⟩⟩

/-- Settles O35: the 12 bits of `pc` hold the sum modulo 4096. -/
theorem jumpWithOffsetWraps : Obligations.JumpWithOffsetWraps :=
  fun _ _ => ⟨_, rfl, rfl, BitVec.toNat_ofNat _ _⟩

/-! ## Skips

The six skip handlers differ in their condition alone, so what a skip does to the state, and what its cycle does
to `pc`, is said once for any condition. -/

theorem onlyPcChanges_skipIf (s : State) (c : Bool) : OnlyPcChanges s (s.skipIf c) := by
  rw [State.skipIf_eq_setPc]
  rfl

/-- A handler that skips on `c` answers a next state in which `pc` alone may differ. -/
theorem exists_next_of_exec_skipIf {i : Instr} {s : State} {c : Bool} (h : exec i s = .next (s.skipIf c)) :
    ∃ t, exec i s = .next t ∧ OnlyPcChanges s t ∧ t.pc = if c then s.pc + 2 else s.pc :=
  ⟨_, h, onlyPcChanges_skipIf s c, s.skipIf_pc c⟩

/-- The cycle of a skip adds its 2 to those of the pre-advance (41_control_flow.md R108). -/
theorem pc_of_step_skipIf {s t : State} {i : Instr} {c : Bool} (hrun : s.fault = .running)
    (hstep : step s = .next t) (hdec : decode (fetchWord s) = i)
    (hexec : exec i (beginCycle s) = .next ((beginCycle s).skipIf c)) :
    t.pc = if c then s.pc + 4 else s.pc + 2 := by
  have hskipRun : ((beginCycle s).skipIf c).fault = .running := by simpa using hrun
  obtain rfl := Host.Outcome.next.inj (hstep.symm.trans (step_of_exec_running hrun hdec hexec hskipRun))
  have htwice : s.pc + 2 + 2 = s.pc + 4 := BitVec.add_assoc _ _ _
  rw [timerStep_pc, State.skipIf_pc, beginCycle_pc, htwice]

/-- The key a byte selects is its low four bits (45_keypad_timers_random.md R160). -/
theorem keyOf_val (b : Byte) : (keyOf b).val = b.toNat % 16 := by
  simp [keyOf]

theorem keyDown_beginCycle (s : State) (b : Byte) :
    (beginCycle s).keyDown (keyOf b) = (s.keyInput.headD s.keys).getLsbD (b.toNat % 16) := by
  rw [State.keyDown, beginCycle_keys, keyOf_val]

/-- Settles O39: bytes are equal when their values are. -/
theorem skipOnByte : Obligations.SkipOnByte := by
  refine ⟨fun w => ⟨decode_of_topNibble_3, decode_of_topNibble_4⟩, fun x kk s => ⟨?_, ?_⟩⟩
  · simpa [BitVec.toNat_inj] using exists_next_of_exec_skipIf (i := .seByte x kk) (s := s) rfl
  · simpa [BitVec.toNat_inj] using exists_next_of_exec_skipIf (i := .sneByte x kk) (s := s) rfl

/-- Settles O40: registers are equal when their values are; the decoder does not look at bits 3:0. -/
theorem skipOnRegisters : Obligations.SkipOnRegisters := by
  refine ⟨fun w => ⟨decode_of_topNibble_5, decode_of_topNibble_9⟩, fun x y s => ⟨?_, ?_⟩⟩
  · simpa [BitVec.toNat_inj] using exists_next_of_exec_skipIf (i := .seReg x y) (s := s) rfl
  · simpa [BitVec.toNat_inj] using exists_next_of_exec_skipIf (i := .sneReg x y) (s := s) rfl

/-- Settles O41, by the cycle of a skip and the condition of each of the six, read after the keys are sampled. -/
theorem skipAdvancesFourInAll : Obligations.SkipAdvancesFourInAll := by
  intro s t x y kk hrun hstep
  refine ⟨fun hdec => ?_, fun hdec => ?_, fun hdec => ?_, fun hdec => ?_, fun hdec => ?_, fun hdec => ?_⟩
  · simpa using pc_of_step_skipIf hrun hstep hdec rfl
  · simpa using pc_of_step_skipIf hrun hstep hdec rfl
  · simpa using pc_of_step_skipIf hrun hstep hdec rfl
  · simpa using pc_of_step_skipIf hrun hstep hdec rfl
  · simpa [keyDown_beginCycle] using pc_of_step_skipIf hrun hstep hdec rfl
  · rw [pc_of_step_skipIf hrun hstep hdec rfl, reg_beginCycle, keyDown_beginCycle]
    simp only [Bool.not_eq_true', ← Bool.not_eq_true, ite_not]

end Sys2Proof.Machine

namespace Sys2Proof

/-! ## The decoder on the loads of a register -/

theorem decode_of_topNibble_6 {w : Word} (h : topNibble w = 0x6) :
    decode w = .ldByte (fieldX w) (fieldKk w) := by
  simp [decode, h]

theorem decodeNibble8_of_lowNibble_0 {w : Word} (h : lowNibble w = 0x0) :
    decodeNibble8 w = .ldReg (fieldX w) (fieldY w) := by
  simp [decodeNibble8, h]

end Sys2Proof

namespace Sys2Proof.Machine

/-! ## Register load, arithmetic and logic without a flag (42_alu.md R132)

These handlers differ in the byte they store alone, so their frame is that of `setReg`. -/

theorem onlyRegistersChange_setReg (s : State) (x : RegIdx) (b : Byte) :
    OnlyRegistersChange [x] s (s.setReg x b) :=
  ⟨rfl, fun _ hr => s.reg_setReg_of_ne b (List.ne_of_not_mem_cons hr).symm⟩

/-- Settles O27, by the decoder's arm and the register write of the handler. -/
theorem loadImmediate : Obligations.LoadImmediate :=
  ⟨fun _ => decode_of_topNibble_6,
    fun x kk s => ⟨_, rfl, onlyRegistersChange_setReg s x _, s.reg_setReg_self x kk⟩⟩

/-- Settles O28: the handler stores the byte it read from `V[y]`, also when `x` and `y` are one register. -/
theorem moveRegister : Obligations.MoveRegister :=
  ⟨fun _ htop hlow => (decode_of_topNibble_8 htop).trans (decodeNibble8_of_lowNibble_0 hlow),
    fun x y s => ⟨_, rfl, onlyRegistersChange_setReg s x _, s.reg_setReg_self x (s.reg y)⟩⟩

/-- Settles O29: the 8 bits of a register hold the sum modulo 256. -/
theorem addImmediateWritesNoFlag : Obligations.AddImmediateWritesNoFlag := by
  intro x kk s
  refine ⟨_, rfl, onlyRegistersChange_setReg s x _, ?_⟩
  rw [State.reg_setReg_self, BitVec.toNat_ofNat]

/-- Settles O30: the operations on bytes act on each bit. -/
theorem logicalOperations : Obligations.LogicalOperations := by
  intro x y s
  refine ⟨⟨_, rfl, onlyRegistersChange_setReg s x _, fun k => ?or⟩,
    ⟨_, rfl, onlyRegistersChange_setReg s x _, fun k => ?and⟩,
    ⟨_, rfl, onlyRegistersChange_setReg s x _, fun k => ?xor⟩⟩
  case or => rw [State.reg_setReg_self, BitVec.getLsbD_or]
  case and => rw [State.reg_setReg_self, BitVec.getLsbD_and]
  case xor => rw [State.reg_setReg_self, BitVec.getLsbD_xor]

/-! ## Flag and result (42_alu.md R131, 40_cycle_and_dispatch.md R96)

The five flag writers differ in the pair they store alone: what storing it does is said once for any pair, and
each pair is read as arithmetic on exact integers. -/

theorem onlyRegistersChange_setFlagAndResult (s : State) (x : RegIdx) (p : Bool × Byte) :
    OnlyRegistersChange [x, vF] s (s.setFlagAndResult x p) := by
  refine ⟨rfl, fun r hr => ?_⟩
  obtain ⟨hx, hvF⟩ : r ≠ x ∧ r ≠ vF := by simpa using hr
  rw [State.reg_setFlagAndResult, if_neg hx.symm, if_neg hvF.symm]

/-- `V[x]` holds the result for every `x`: the result is written last (R96). -/
theorem State.reg_setFlagAndResult_self (s : State) (x : RegIdx) (p : Bool × Byte) :
    (s.setFlagAndResult x p).reg x = p.2 := by
  rw [State.reg_setFlagAndResult, if_pos rfl]

theorem State.reg_vF_setFlagAndResult (s : State) {x : RegIdx} (hx : x ≠ vF) (p : Bool × Byte) :
    (s.setFlagAndResult x p).reg vF = flagByte p.1 := by
  rw [State.reg_setFlagAndResult, if_neg hx, if_pos rfl]

theorem flagByte_decide (P : Prop) [Decidable P] : flagByte (decide P) = if P then 1 else 0 := by
  simp only [flagByte, decide_eq_true_eq]

theorem toNat_flagByte (c : Bool) : (flagByte c).toNat = c.toNat := by
  cases c <;> rfl

theorem addWithCarry_result (a b : Byte) : (addWithCarry a b).2.toNat = (a.toNat + b.toNat) % 256 :=
  BitVec.toNat_ofNat _ _

theorem addWithCarry_flag (a b : Byte) :
    flagByte (addWithCarry a b).1 = if 255 < a.toNat + b.toNat then 1 else 0 :=
  flagByte_decide _

theorem subNoBorrow_result (a b : Byte) : (subNoBorrow a b).2.toNat = (a.toNat + 256 - b.toNat) % 256 := by
  rw [subNoBorrow, BitVec.toNat_ofInt]
  omega

theorem subNoBorrow_flag (a b : Byte) :
    flagByte (subNoBorrow a b).1 = if b.toNat ≤ a.toNat then 1 else 0 := by
  have hge : (a.toNat : Int) - b.toNat ≥ 0 ↔ b.toNat ≤ a.toNat := by omega
  simp only [subNoBorrow, flagByte_decide, hge]

theorem shiftRight_result (a : Byte) : (shiftRight a).2.toNat = a.toNat / 2 := by
  rw [shiftRight, BitVec.toNat_ofNat]
  omega

theorem shiftRight_flag (a : Byte) : (flagByte (shiftRight a).1).toNat = a.toNat % 2 := by
  rw [toNat_flagByte, shiftRight, BitVec.getLsbD, Nat.toNat_testBit, pow_zero, Nat.div_one]

theorem shiftLeft_result (a : Byte) : (shiftLeft a).2.toNat = (2 * a.toNat) % 256 := by
  rw [shiftLeft, BitVec.toNat_ofNat, Nat.mul_comm]

/-- The quotient by 128 is bit 7, a byte having no bit above it. -/
theorem shiftLeft_flag (a : Byte) : (flagByte (shiftLeft a).1).toNat = a.toNat / 128 := by
  rw [toNat_flagByte, shiftLeft, BitVec.getLsbD, Nat.toNat_testBit]
  omega

/-- Settles O31, by the arithmetic of `addWithCarry`. -/
theorem addSetsCarry : Obligations.AddSetsCarry := by
  intro x y s
  refine ⟨_, rfl, onlyRegistersChange_setFlagAndResult s x _, ?result, fun hx => ?flag⟩
  case result => rw [State.reg_setFlagAndResult_self, addWithCarry_result]
  case flag => rw [State.reg_vF_setFlagAndResult s hx, addWithCarry_flag]

/-- What `SUB` and `SUBN` have in common: the difference of two bytes and its not-borrow, stored in `V[x]` and `VF`. -/
theorem exists_next_of_exec_subNoBorrow {i : Instr} {s : State} {x : RegIdx} {a b : Byte}
    (h : exec i s = .next (s.setFlagAndResult x (subNoBorrow a b))) :
    ∃ t, exec i s = .next t ∧ OnlyRegistersChange [x, vF] s t ∧
      (t.reg x).toNat = (a.toNat + 256 - b.toNat) % 256 ∧
      (x ≠ vF → t.reg vF = if b.toNat ≤ a.toNat then 1 else 0) := by
  refine ⟨_, h, onlyRegistersChange_setFlagAndResult s x _, ?result, fun hx => ?flag⟩
  case result => rw [State.reg_setFlagAndResult_self, subNoBorrow_result]
  case flag => rw [State.reg_vF_setFlagAndResult s hx, subNoBorrow_flag]

/-- Settles O32: `SUB` and `SUBN` differ in the order of the operands. -/
theorem subtractSetsNoBorrow : Obligations.SubtractSetsNoBorrow :=
  fun _ _ _ => ⟨exists_next_of_exec_subNoBorrow rfl, exists_next_of_exec_subNoBorrow rfl⟩

/-- Settles O33, by the arithmetic of `shiftRight` and `shiftLeft`. -/
theorem shiftsDeliverTheBitThatLeft : Obligations.ShiftsDeliverTheBitThatLeft := by
  intro x s
  refine ⟨⟨_, rfl, onlyRegistersChange_setFlagAndResult s x _, ?half, fun hx => ?bit0⟩,
    ⟨_, rfl, onlyRegistersChange_setFlagAndResult s x _, ?double, fun hx => ?bit7⟩⟩
  case half => rw [State.reg_setFlagAndResult_self, shiftRight_result]
  case bit0 => rw [State.reg_vF_setFlagAndResult s hx, shiftRight_flag]
  case double => rw [State.reg_setFlagAndResult_self, shiftLeft_result]
  case bit7 => rw [State.reg_vF_setFlagAndResult s hx, shiftLeft_flag]

end Sys2Proof.Machine

namespace Sys2Proof

/-! ## The decoder on the load of the address register -/

theorem decode_of_topNibble_A {w : Word} (h : topNibble w = 0xA) : decode w = .ldI (fieldNnn w) := by
  simp [decode, h]

end Sys2Proof

namespace Sys2Proof.Machine

/-! ## Block store and block load (43_index_memory.md R143 to R146)

Both stores are a run of writes from `I` on: its frame and what it leaves at `EA(k)` are said once for any list of
bytes. -/

theorem onlyBytesChange_writeList (s : State) {l : List Byte} {len : Nat} (hlen : l.length = len) :
    OnlyBytesChange s.i len s (s.setMem (Memory.writeList s.mem s.i l)) :=
  ⟨rfl, fun c hc => Memory.read_writeList_of_not_mem s.mem s.i c (hlen ▸ hc)⟩

/-- The bound keeps the run from wrapping around onto its own first bytes. -/
theorem Memory.read_writeList_getElem {m : Memory} (h : Memory.wf m = true) (a : Addr) {l : List Byte}
    (hl : l.length ≤ 4096) {k : Nat} (hk : k < l.length) :
    Memory.read (Memory.writeList m a l) (effectiveAddress a k) = l[k] := by
  have hoff : (effectiveAddress a k - a).toNat = k := by unfold effectiveAddress; bv_omega
  rw [Memory.read_writeList h _ _ hl, hoff, List.getD_eq_getElem _ _ hk]

/-- The digits of a byte, as the numbers R143 names: each fits in a byte. -/
theorem map_toNat_bcdDigits (b : Byte) :
    (bcdDigits b).map BitVec.toNat = [b.toNat / 100, b.toNat / 10 % 10, b.toNat % 10] := by
  simp only [bcdDigits, List.map_cons, List.map_nil, BitVec.toNat_ofNat, List.cons.injEq, and_true]
  omega

/-- `LD B, Vx` puts digit `k` at `EA(k)`, as `Memory.read_writeList_blockRegs` says for a block store. -/
theorem Memory.toNat_read_writeList_bcdDigits {m : Memory} (h : Memory.wf m = true) (a : Addr) (b : Byte) {k : Nat}
    (hk : k < 3) :
    (Memory.read (Memory.writeList m a (bcdDigits b)) (effectiveAddress a k)).toNat =
      [b.toNat / 100, b.toNat / 10 % 10, b.toNat % 10][k] := by
  have hlen : (bcdDigits b).length = 3 := rfl
  have hkmap : k < ((bcdDigits b).map BitVec.toNat).length := by rwa [List.length_map]
  calc (Memory.read (Memory.writeList m a (bcdDigits b)) (effectiveAddress a k)).toNat
      = (bcdDigits b)[k].toNat :=
        congrArg BitVec.toNat (Memory.read_writeList_getElem h a (by rw [hlen]; decide) hk)
    _ = ((bcdDigits b).map BitVec.toNat)[k] := (List.getElem_map BitVec.toNat).symm
    _ = [b.toNat / 100, b.toNat / 10 % 10, b.toNat % 10][k] :=
        List.getElem_of_eq (map_toNat_bcdDigits b) hkmap

/-- Settles O44: byte `k` of the store is digit `k`. -/
theorem storeDecimalDigits : Obligations.StoreDecimalDigits := by
  intro x s hwf
  have hdigit {k : Nat} (hk : k < 3) := Memory.toNat_read_writeList_bcdDigits hwf s.i (s.reg x) hk
  have hfirst := hdigit (k := 0) (by decide)
  have hEA0 : effectiveAddress s.i 0 = s.i := BitVec.add_zero s.i
  rw [hEA0] at hfirst
  exact ⟨_, rfl, onlyBytesChange_writeList s rfl, hfirst, hdigit (k := 1) (by decide),
    hdigit (k := 2) (by decide)⟩

/-- Settles O45: the block has `x + 1` registers, of which byte `k` is `V[k]`. -/
theorem storeRegisterBlock : Obligations.StoreRegisterBlock := by
  intro x s hwf
  have hlen : ((blockRegs x).map s.reg).length = x.val + 1 := by rw [List.length_map, length_blockRegs]
  exact ⟨_, rfl, onlyBytesChange_writeList s hlen,
    fun _ hk => Memory.read_writeList_blockRegs hwf s.i s.reg hk⟩

theorem State.loadBlock_eq (s : State) (l : List RegIdx) :
    s.loadBlock l = { s with v := (s.loadBlock l).v } := by
  induction l generalizing s with
  | nil => rfl
  | cons k rest ih => exact ih _

/-- Settles O46: the registers of the block are those up to and including `x`. -/
theorem loadRegisterBlock : Obligations.LoadRegisterBlock := by
  intro x s
  refine ⟨_, rfl, s.loadBlock_eq _, fun k => ?_⟩
  simp only [State.reg_loadBlock, mem_blockRegs, effectiveAddress]

/-- Settles O47: the load reads each `V[k]` where the store has put it, the store having left `I` alone. -/
theorem storedBlockLoadsBack : Obligations.StoredBlockLoadsBack := by
  intro x s t u u' hwf hstore hmem hi hload k hk
  obtain ⟨t', hstore', ⟨hframe, -⟩, hbytes⟩ := storeRegisterBlock x s hwf
  obtain rfl : t' = t := Host.Outcome.next.inj (hstore'.symm.trans hstore)
  obtain ⟨u'', hload', -, hregs⟩ := loadRegisterBlock x u
  obtain rfl : u'' = u' := Host.Outcome.next.inj (hload'.symm.trans hload)
  have hti : t'.i = s.i := by rw [hframe]
  calc u''.reg k
      = Memory.read u.mem (u.i + BitVec.ofNat 12 k.val) := by rw [hregs, if_pos hk]
    _ = Memory.read t'.mem (s.i + BitVec.ofNat 12 k.val) := by rw [hmem, hi, hti]
    _ = s.reg k := hbytes k hk

/-! ## The address register (43_index_memory.md R140 to R142) -/

/-- Settles O42, by the decoder's arm and the `I` update of the handler. -/
theorem loadAddressRegister : Obligations.LoadAddressRegister :=
  ⟨fun _ => decode_of_topNibble_A, fun _ _ => ⟨_, rfl, rfl, rfl⟩⟩

theorem toNat_zextAddr (b : Byte) : (zextAddr b).toNat = b.toNat :=
  BitVec.toNat_setWidth_of_le (by decide)

/-- The font and five rows for each of the 256 bytes end below 4096, so nothing wraps. -/
theorem toNat_glyphAddress (b : Byte) : (glyphAddress b).toNat = 0x050 + 5 * b.toNat := by
  have hbase : fontBase.toNat = 0x050 := rfl
  rw [glyphAddress, BitVec.toNat_ofNat, hbase]
  omega

/-- Settles O43, by the two values of `I` as numbers. -/
theorem addressRegisterArithmetic : Obligations.AddressRegisterArithmetic := by
  intro x s
  refine ⟨⟨_, rfl, rfl, ?sum⟩, ⟨_, rfl, rfl, ?glyph⟩⟩
  case sum => rw [State.setI_i, BitVec.toNat_add, toNat_zextAddr]
  case glyph => rw [State.setI_i, toNat_glyphAddress]

end Sys2Proof.Machine

namespace Sys2Proof

/-! ## The decoder on the clear of the screen -/

theorem decodeNibble0_of_lowNibble_0 {w : Word} (h : lowNibble w = 0x0) : decodeNibble0 w = .cls := by
  simp [decodeNibble0, h]

end Sys2Proof

namespace Sys2Proof.Machine

/-! ## Display (44_graphics.md)

The pixel loop of `DRW` is a run of inversions along the list of the pixels its 1 bits fall on. No pixel stands
twice in that list, so each is inverted once, and goes from on to off exactly when it was on at first. -/

/-- Settles O49: the handler stores the clear framebuffer. -/
theorem clearTurnsEveryPixelOff : Obligations.ClearTurnsEveryPixelOff :=
  ⟨fun _ htop hlow => (decode_of_topNibble_0 htop).trans (decodeNibble0_of_lowNibble_0 hlow),
    fun _ => ⟨_, rfl, rfl, Framebuffer.pixel_clear⟩⟩

/-- What a 1 bit does to a drawing when it falls on pixel `p`, a row and a column. -/
def Drawing.invert (d : Drawing) (p : Fin 32 × Fin 64) : Drawing where
  fb := Framebuffer.toggle d.fb p.1 p.2
  collision := d.collision || Framebuffer.pixel d.fb p.1 p.2

/-- The pixels the 1 bits of one row of the sprite fall on, in the order of the loop (R151). -/
def State.rowPixels (s : State) (x y : RegIdx) (row : Nat) : List (Fin 32 × Fin 64) :=
  ((List.range 8).filter fun col => (Memory.read s.mem (effectiveAddress s.i row)).getLsbD (7 - col)).map
    fun col => (pixelRow (s.reg y) row, pixelColumn (s.reg x) col)

/-- The pixels the 1 bits of the sprite of `DRW Vx, Vy, n` fall on, in the order of the loop (R151). -/
def State.spritePixels (s : State) (x y : RegIdx) (n : Fin 16) : List (Fin 32 × Fin 64) :=
  (List.range n.val).flatMap (s.rowPixels x y)

theorem drawSpriteRow_eq_foldl_invert (s : State) (x y : RegIdx) (d : Drawing) (row : Nat) :
    drawSpriteRow s.mem s.i (s.reg x) (s.reg y) d row = (s.rowPixels x y row).foldl Drawing.invert d := by
  rw [State.rowPixels, List.foldl_map, List.foldl_filter]
  rfl

theorem drawSprite_eq_foldl_invert (s : State) (x y : RegIdx) (n : Fin 16) (fb : Framebuffer) :
    drawSprite s.mem s.i (s.reg x) (s.reg y) n.val fb =
      (s.spritePixels x y n).foldl Drawing.invert { fb := fb, collision := false } := by
  simp only [State.spritePixels, List.foldl_flatMap, ← drawSpriteRow_eq_foldl_invert]
  rfl

theorem mem_rowPixels {s : State} {x y : RegIdx} {row : Nat} {yy : Fin 32} {xx : Fin 64} :
    (yy, xx) ∈ s.rowPixels x y row ↔
      ∃ col < 8, (Memory.read s.mem (effectiveAddress s.i row)).getLsbD (7 - col) = true ∧
        yy = pixelRow (s.reg y) row ∧ xx = pixelColumn (s.reg x) col := by
  simp only [State.rowPixels, List.mem_map, List.mem_filter, List.mem_range, Prod.mk_inj, and_assoc, eq_comm]

theorem mem_spritePixels {s : State} {x y : RegIdx} {n : Fin 16} {yy : Fin 32} {xx : Fin 64} :
    (yy, xx) ∈ s.spritePixels x y n ↔ SpriteCovers s x y n yy xx := by
  simp only [State.spritePixels, List.mem_flatMap, List.mem_range, mem_rowPixels, Fin.ext_iff]
  rfl

/-- The pixels of a sprite depend on its bytes and its place alone. -/
theorem State.spritePixels_congr {s t : State} {x y : RegIdx} {n : Fin 16} (hmem : t.mem = s.mem) (hi : t.i = s.i)
    (hx : t.reg x = s.reg x) (hy : t.reg y = s.reg y) : t.spritePixels x y n = s.spritePixels x y n := by
  have hrow : t.rowPixels x y = s.rowPixels x y := by
    funext row
    rw [State.rowPixels, State.rowPixels, hmem, hi, hx, hy]
  rw [State.spritePixels, State.spritePixels, hrow]

/-! ### No pixel twice: a sprite is smaller than the screen it wraps around -/

theorem pixelColumn_inj (xs : Byte) {col col' : Nat} (hcol : col < 8) (hcol' : col' < 8)
    (h : pixelColumn xs col = pixelColumn xs col') : col = col' := by
  simp only [pixelColumn, Fin.mk.injEq] at h
  omega

theorem pixelRow_inj (ys : Byte) {row row' : Nat} (hrow : row < 16) (hrow' : row' < 16)
    (h : pixelRow ys row = pixelRow ys row') : row = row' := by
  simp only [pixelRow, Fin.mk.injEq] at h
  omega

theorem nodup_rowPixels (s : State) (x y : RegIdx) (row : Nat) : (s.rowPixels x y row).Nodup := by
  refine List.Nodup.map_on (fun col hcol col' hcol' h => ?_) (List.nodup_range.filter _)
  obtain ⟨-, hcolumn⟩ := Prod.mk.inj h
  exact pixelColumn_inj _ (List.mem_range.mp (List.mem_of_mem_filter hcol))
    (List.mem_range.mp (List.mem_of_mem_filter hcol')) hcolumn

theorem disjoint_rowPixels (s : State) (x y : RegIdx) {row row' : Nat} (hrow : row < 16) (hrow' : row' < 16)
    (hne : row ≠ row') : List.Disjoint (s.rowPixels x y row) (s.rowPixels x y row') := by
  rintro ⟨yy, xx⟩ h h'
  obtain ⟨_, _, _, hyy, _⟩ := mem_rowPixels.mp h
  obtain ⟨_, _, _, hyy', _⟩ := mem_rowPixels.mp h'
  exact hne (pixelRow_inj _ hrow hrow' (hyy.symm.trans hyy'))

theorem nodup_spritePixels (s : State) (x y : RegIdx) (n : Fin 16) : (s.spritePixels x y n).Nodup := by
  refine List.nodup_flatMap.mpr ⟨fun row _ => nodup_rowPixels s x y row, ?_⟩
  refine List.nodup_range.pairwise_of_forall_ne fun row hrow row' hrow' hne => ?_
  rw [List.mem_range] at hrow hrow'
  exact disjoint_rowPixels s x y (hrow.trans n.isLt) (hrow'.trans n.isLt) hne

/-! ### A run of inversions along a list without repetition -/

theorem Drawing.pixel_invert (d : Drawing) (p : Fin 32 × Fin 64) (yy : Fin 32) (xx : Fin 64) :
    Framebuffer.pixel (d.invert p).fb yy xx = (Framebuffer.pixel d.fb yy xx ^^ decide ((yy, xx) = p)) := by
  simp only [Drawing.invert, Framebuffer.pixel_toggle, Prod.ext_iff]

theorem pixel_foldl_invert {l : List (Fin 32 × Fin 64)} (hl : l.Nodup) (d : Drawing) (yy : Fin 32) (xx : Fin 64) :
    Framebuffer.pixel (l.foldl Drawing.invert d).fb yy xx =
      (Framebuffer.pixel d.fb yy xx ^^ decide ((yy, xx) ∈ l)) := by
  induction l generalizing d with
  | nil => simp
  | cons p rest ih =>
    obtain ⟨hp, hrest⟩ := List.nodup_cons.mp hl
    rw [List.foldl_cons, ih hrest, Drawing.pixel_invert]
    by_cases h : (yy, xx) = p
    · subst h; simp [hp]
    · simp [h]

/-- The pixels still to come are as they were, so the run may look at the framebuffer it began with. -/
theorem collision_foldl_invert {l : List (Fin 32 × Fin 64)} (hl : l.Nodup) (d : Drawing) :
    (l.foldl Drawing.invert d).collision = true ↔
      d.collision = true ∨ ∃ p ∈ l, Framebuffer.pixel d.fb p.1 p.2 = true := by
  induction l generalizing d with
  | nil => simp
  | cons p rest ih =>
    obtain ⟨hp, hrest⟩ := List.nodup_cons.mp hl
    have hkept : ∀ q ∈ rest, Framebuffer.pixel (d.invert p).fb q.1 q.2 = Framebuffer.pixel d.fb q.1 q.2 := by
      intro q hq
      have hne : q ≠ p := fun e => hp (e ▸ hq)
      simp [Drawing.pixel_invert, hne]
    have hrun : (∃ q ∈ rest, Framebuffer.pixel (d.invert p).fb q.1 q.2 = true) ↔
        ∃ q ∈ rest, Framebuffer.pixel d.fb q.1 q.2 = true :=
      exists_congr fun q => and_congr_right fun hq => by rw [hkept q hq]
    rw [List.foldl_cons, ih hrest, hrun]
    simp [Drawing.invert, or_assoc]

/-! ### What `DRW` does -/

/-- `DRW` (R151): the pixels of the sprite are inverted, `VF` says whether one of them was on, and nothing else
changes. -/
theorem exec_drw (x y : RegIdx) (n : Fin 16) (s : State) :
    ∃ t, exec (.drw x y n) s = .next t ∧ t = { s with v := t.v, fb := t.fb } ∧ (∀ r, r ≠ vF → t.reg r = s.reg r) ∧
      (∀ yy xx, Framebuffer.pixel t.fb yy xx =
        (Framebuffer.pixel s.fb yy xx ^^ decide ((yy, xx) ∈ s.spritePixels x y n))) ∧
      t.reg vF = if ∃ p ∈ s.spritePixels x y n, Framebuffer.pixel s.fb p.1 p.2 = true then 1 else 0 := by
  have hnodup := nodup_spritePixels s x y n
  refine ⟨_, rfl, rfl, fun r hr => s.reg_setReg_of_ne _ hr.symm, fun yy xx => ?pixel, ?flag⟩
  case pixel => rw [State.setFb_fb, drawSprite_eq_foldl_invert, pixel_foldl_invert hnodup]
  case flag =>
    rw [State.reg_setFb, State.reg_setReg_self, drawSprite_eq_foldl_invert, flagByte]
    simp only [collision_foldl_invert hnodup, Bool.false_eq_true, false_or]

/-- Settles O50: membership in the list of inverted pixels is `SpriteCovers`. -/
theorem drawInvertsExactlyTheCoveredPixels : Obligations.DrawInvertsExactlyTheCoveredPixels := by
  intro x y n s
  obtain ⟨t, hexec, -, -, hpixel, -⟩ := exec_drw x y n s
  refine ⟨t, hexec, fun yy xx => ?_⟩
  rw [hpixel, ← mem_spritePixels]
  exact ⟨fun hmem => by simp [hmem], fun hmem => by simp [hmem]⟩

/-- Settles O51: a pixel goes from on to off exactly when the sprite covers it and it was on. -/
theorem drawFlagIsCollision : Obligations.DrawFlagIsCollision := by
  intro x y n s
  obtain ⟨t, hexec, hframe, hreg, hpixel, hflag⟩ := exec_drw x y n s
  have hwentOff : (∃ yy xx, Framebuffer.pixel s.fb yy xx = true ∧ Framebuffer.pixel t.fb yy xx = false) ↔
      ∃ p ∈ s.spritePixels x y n, Framebuffer.pixel s.fb p.1 p.2 = true := by
    rw [Prod.exists]
    refine exists₂_congr fun yy xx => ?_
    rw [and_comm (b := Framebuffer.pixel s.fb yy xx = true), hpixel]
    exact and_congr_right fun hon => by simp [hon]
  refine ⟨t, hexec, hframe, hreg, fun h => ?_, fun h => ?_⟩
  · rw [hflag, if_pos (hwentOff.mp h)]
  · rw [hflag, if_neg (hwentOff.not.mp h)]

/-- Settles O52: both draws invert the same pixels, and the second finds on those the first found off. -/
theorem drawingTwiceRestores : Obligations.DrawingTwiceRestores := by
  intro x y n s t u hst hx hy htu
  obtain ⟨t', hexec, hframe, -, hpixel, -⟩ := exec_drw x y n s
  obtain rfl : t' = t := Host.Outcome.next.inj (hexec.symm.trans hst)
  obtain ⟨u', hexec', -, -, hpixel', hflag'⟩ := exec_drw x y n t'
  obtain rfl : u' = u := Host.Outcome.next.inj (hexec'.symm.trans htu)
  have hmem : t'.mem = s.mem := by rw [hframe]
  have hi : t'.i = s.i := by rw [hframe]
  rw [State.spritePixels_congr hmem hi hx hy] at hpixel' hflag'
  refine ⟨Framebuffer.ext_pixel fun yy xx => ?restored, ?flag⟩
  case restored => rw [hpixel', hpixel, Bool.xor_assoc, Bool.xor_self, Bool.xor_false]
  case flag =>
    have hone : (1 : Byte) ≠ 0 := by decide
    rw [hflag', hone.ite_eq_left_iff, Prod.exists]
    refine exists₂_congr fun yy xx => ?_
    rw [← mem_spritePixels, hpixel]
    exact and_congr_right fun hcovered => by simp [hcovered]

end Sys2Proof.Machine

namespace Sys2Proof

/-! ## The decoder on the read of the delay timer -/

theorem decodeNibbleF_of_fieldKk_07 {w : Word} (h : fieldKk w = 0x07) : decodeNibbleF w = .ldVxDt (fieldX w) := by
  simp [decodeNibbleF, h]

end Sys2Proof

namespace Sys2Proof.Machine

/-! ## Skips on a key (45_keypad_timers_random.md R160, R161) -/

/-- Settles O54: the key is the low four bits of `V[x]`. -/
theorem skipOnKey : Obligations.SkipOnKey := by
  intro x s
  have hkey : s.keyDown (keyOf (s.reg x)) = s.keys.getLsbD ((s.reg x).toNat % 16) := by
    rw [State.keyDown, keyOf_val]
  refine ⟨?skp, ?sknp⟩
  case skp => simpa only [hkey] using exists_next_of_exec_skipIf (i := .skp x) (s := s) rfl
  case sknp =>
    simpa only [hkey, Bool.not_eq_true', ← Bool.not_eq_true, ite_not] using
      exists_next_of_exec_skipIf (i := .sknp x) (s := s) rfl

/-! ## The key wait (45_keypad_timers_random.md R162) -/

/-- The lowest key down is found, and no other: a lower one found would be down, a higher one would pass over it. -/
theorem State.lowestKey_eq_some_iff (s : State) (k : KeyIdx) :
    s.lowestKey = some k ↔ s.keyDown k = true ∧ ∀ j < k, s.keyDown j = false := by
  refine ⟨State.lowestKey_eq_some, fun ⟨hk, hbelow⟩ => ?_⟩
  cases hfound : s.lowestKey with
  | none => simp [s.lowestKey_eq_none_iff.mp hfound k] at hk
  | some m =>
    obtain ⟨hm, hbelow'⟩ := State.lowestKey_eq_some hfound
    obtain hmk | rfl | hkm := lt_trichotomy m k
    · simp [hbelow m hmk] at hm
    · rfl
    · simp [hbelow' k hkm] at hk

/-- A key's number fits a byte. -/
theorem toNat_keyByte (k : KeyIdx) : (keyByte k).toNat = k.val :=
  Nat.mod_eq_of_lt (k.isLt.trans (by decide))

theorem exec_ldVxK_of_lowestKey {s : State} {k : KeyIdx} (x : RegIdx) (h : s.lowestKey = some k) :
    exec (.ldVxK x) s = .next (s.setReg x (keyByte k)) := by
  rw [exec, execLdVxK, h]

theorem exec_ldVxK_of_no_key {s : State} (x : RegIdx) (h : s.lowestKey = none) :
    exec (.ldVxK x) s = .next s.retreat := by
  rw [exec, execLdVxK, h]

/-- Settles O55: the handler finds the lowest key down and stores its number. -/
theorem keyWaitLoadsTheLowestKey : Obligations.KeyWaitLoadsTheLowestKey := by
  intro x s k hk hbelow
  have hlowest : s.lowestKey = some k := (s.lowestKey_eq_some_iff k).mpr ⟨hk, hbelow⟩
  refine ⟨_, exec_ldVxK_of_lowestKey x hlowest, onlyRegistersChange_setReg s x _, ?_⟩
  rw [State.reg_setReg_self, toNat_keyByte]

/-- Settles O56: with no key sampled down the handler's retreat undoes the pre-advance of `pc`. -/
theorem keyWaitStandsStill : Obligations.KeyWaitStandsStill := by
  intro x s hrun hdec hkeys
  have hnone : (beginCycle s).lowestKey = none := by
    rw [State.lowestKey_eq_none_iff]
    intro k
    rw [State.keyDown, beginCycle_keys, hkeys]
    exact BitVec.getLsbD_zero
  have hstep := step_of_exec_running hrun hdec (exec_ldVxK_of_no_key x hnone) ((beginCycle_fault s).trans hrun)
  have hpc : s.pc + 2 - 2 = s.pc := BitVec.add_sub_cancel _ _
  rw [beginCycle_eq, hkeys, State.retreat, State.setPc, hpc] at hstep
  exact ⟨_, hstep, tickedFrom_tick s.dt, tickedFrom_tick s.st, rfl⟩

/-! ## The timers (45_keypad_timers_random.md R163 to R165) -/

/-- The cycle of `LD Vx, DT`: the handler stores `DT`, and the timer step comes after it. -/
theorem step_ldVxDt {s : State} {x : RegIdx} (hrun : s.fault = .running)
    (hdec : decode (fetchWord s) = .ldVxDt x) :
    step s = .next (timerStep ((beginCycle s).setReg x s.dt)) := by
  have hexec : exec (.ldVxDt x) (beginCycle s) = .next ((beginCycle s).setReg x s.dt) := by
    rw [exec, execLdVxDt, beginCycle_dt]
  exact step_of_exec_running hrun hdec hexec ((beginCycle_fault s).trans hrun)

/-- Settles O57: the register keeps the `DT` the cycle began with, and `DT` itself ticks. -/
theorem readDelayTimer : Obligations.ReadDelayTimer := by
  refine ⟨fun w hnibble hbyte => ?decoded, fun x s => ?handler, fun x s t hrun hdec hstep => ?cycle⟩
  case decoded => exact (decode_of_topNibble_F hnibble).trans (decodeNibbleF_of_fieldKk_07 hbyte)
  case handler => exact ⟨_, rfl, onlyRegistersChange_setReg s x _, s.reg_setReg_self x s.dt⟩
  case cycle =>
    obtain rfl := Host.Outcome.next.inj ((step_ldVxDt hrun hdec).symm.trans hstep)
    refine ⟨?_, ?_⟩
    · rw [reg_timerStep, State.reg_setReg_self]
    · rw [timerStep_dt, State.setReg_dt, beginCycle_dt]
      exact tickedFrom_tick s.dt

/-- Settles O58: each handler is one timer update. -/
theorem loadTimers : Obligations.LoadTimers :=
  fun x s => ⟨⟨_, rfl, rfl, s.setDt_dt (s.reg x)⟩, ⟨_, rfl, rfl, s.setSt_st (s.reg x)⟩⟩

/-! ## Random (45_keypad_timers_random.md R166) -/

theorem exec_rnd (x : RegIdx) (kk : Byte) (s : State) :
    exec (.rnd x kk) s = .next ((s.setReg x (Config.randomByte s.rng &&& kk)).setRng (s.rng + 1)) := rfl

/-- Settles O59: `V[x]` holds the drawn byte under the mask, so none of its bits lies outside it. -/
theorem randomByteUnderMask : Obligations.RandomByteUnderMask := by
  intro x kk s
  refine ⟨_, exec_rnd x kk s, rfl, fun r hr => s.reg_setReg_of_ne _ hr.symm, ?masked, ?outside, rfl⟩
  case masked => rw [State.reg_setRng, State.reg_setReg_self]
  case outside =>
    rw [State.reg_setRng, State.reg_setReg_self, BitVec.and_assoc, BitVec.and_not_self]
    exact BitVec.and_zero

end Sys2Proof.Machine

namespace Sys2Proof.Machine

/-! ## The stack faults (60_exceptions.md R170, R171, R172, R176) -/

/-- A cycle abandoned by a fault: the retreat undoes the pre-advance of `pc`, and what is left of the cycle is
`FAULT` and `OPCODE` (R176). -/
theorem abandonedCycle_eq (s : State) (f : FaultStatus) :
    { beginCycle s with pc := (beginCycle s).pc - 2, fault := f, keys := s.keys, keyInput := s.keyInput } =
    { s with fault := f, opcode := fetchWord s } := by
  rw [beginCycle_eq, BitVec.add_sub_cancel]

theorem exec_call_of_full (nnn : Addr) {s : State} (h : s.sp.val = 16) :
    exec (.call nnn) s = .next { s with pc := s.pc - 2, fault := .stackOverflow } := by
  rw [exec, execCall, (State.pushPc_eq_none_iff s).mpr h, raiseFault_eq]

theorem exec_ret_of_empty {s : State} (h : s.sp.val = 0) :
    exec .ret s = .next { s with pc := s.pc - 2, fault := .stackUnderflow } := by
  rw [exec, execRet, (State.popPc_eq_none_iff s).mpr h, raiseFault_eq]

/-- Settles O18: the handler sees the `SP` the cycle began with, so it raises the fault, and the cycle is
abandoned. -/
theorem stackBoundsFault : Obligations.StackBoundsFault := by
  intro s hrun
  refine ⟨fun nnn hdec hfull => ?overflow, fun hdec hempty => ?underflow⟩
  case overflow =>
    have hexec := exec_call_of_full nnn (s := beginCycle s) (by rwa [beginCycle_sp])
    rw [step_of_exec_faulted hrun hdec hexec nofun, abandonedCycle_eq]
  case underflow =>
    have hexec := exec_ret_of_empty (s := beginCycle s) (by rwa [beginCycle_sp])
    rw [step_of_exec_faulted hrun hdec hexec nofun, abandonedCycle_eq]

/-- Settles O17: a cycle that ends faulted was abandoned, and its handler raised one of the two faults. -/
theorem faultsArePrecise : Obligations.FaultsArePrecise := by
  intro s u hrun hstep hfault
  obtain ⟨hstopped, -⟩ | ⟨-, t, hexec, ⟨ht, rfl⟩ | ⟨ht, rfl⟩⟩ := step_eq_next hstep
  · exact absurd hrun hstopped
  · exact absurd ht hfault
  · obtain hkept | ⟨rfl, hsp, hcall⟩ | ⟨rfl, hsp, hret⟩ := (effect_of_exec hexec).fault_cases
    · exact absurd (hkept.trans ((beginCycle_fault s).trans hrun)) ht
    · rw [beginCycle_sp] at hsp
      exact ⟨abandonedCycle_eq s _, .inl ⟨rfl, hsp, hcall⟩⟩
    · rw [beginCycle_sp] at hsp
      exact ⟨abandonedCycle_eq s _, .inr ⟨rfl, hsp, hret⟩⟩

/-! ## The timer step (60_exceptions.md R179) -/

theorem tickedFrom_tick_of_eq {b c : Byte} (h : c = b) : TickedFrom b (tick c) :=
  h ▸ tickedFrom_tick c

theorem dt_of_exec_ldDtVx {s t : State} {x : RegIdx} (h : exec (.ldDtVx x) s = .next t) : t.dt = s.reg x := by
  obtain ⟨⟨_, hexec, -, hdt⟩, -⟩ := loadTimers x s
  obtain rfl := Host.Outcome.next.inj (hexec.symm.trans h)
  exact hdt

theorem st_of_exec_ldStVx {s t : State} {x : RegIdx} (h : exec (.ldStVx x) s = .next t) : t.st = s.reg x := by
  obtain ⟨-, _, hexec, -, hst⟩ := loadTimers x s
  obtain rfl := Host.Outcome.next.inj (hexec.symm.trans h)
  exact hst

/-- Settles O16: the cycle ends with the timer step, which lowers what the handler left; a handler that loads no
timer leaves the one the cycle began with. -/
theorem timersTickOncePerCycle : Obligations.TimersTickOncePerCycle := by
  intro s u hrun hstep hend
  obtain ⟨hstopped, -⟩ | ⟨-, t, hexec, ⟨-, rfl⟩ | ⟨ht, rfl⟩⟩ := step_eq_next hstep
  · exact absurd hrun hstopped
  · obtain ⟨-, hdtKept, hstKept⟩ := whoWritesAddressRegisterAndTimers _ _ _ hexec
    refine ⟨fun x hdec => ?loadDt, fun hno => ?keepDt, fun x hdec => ?loadSt, fun hno => ?keepSt⟩
    case loadDt =>
      exact tickedFrom_tick_of_eq ((dt_of_exec_ldDtVx (hdec ▸ hexec)).trans (reg_beginCycle s x))
    case keepDt => exact tickedFrom_tick_of_eq ((hdtKept hno).trans (beginCycle_dt s))
    case loadSt =>
      exact tickedFrom_tick_of_eq ((st_of_exec_ldStVx (hdec ▸ hexec)).trans (reg_beginCycle s x))
    case keepSt => exact tickedFrom_tick_of_eq ((hstKept hno).trans (beginCycle_st s))
  · exact absurd hend ht

end Sys2Proof.Machine

namespace Sys2Proof.Machine

/-! ## Program load (70_reset_and_hazards.md R192, R193) -/

theorem State.boot_of_length_le {image : List Byte} (h : image.length ≤ 3584) :
    State.boot image = some (State.reset.loadImage image) :=
  if_pos (decide_eq_true h)

theorem State.boot_of_lt_length {image : List Byte} (h : 3584 < image.length) : State.boot image = none :=
  if_neg (mt of_decide_eq_true (Nat.not_le.mpr h))

theorem onlyBytesChange_loadImage (s : State) (image : List Byte) :
    OnlyBytesChange 0x200 image.length s (s.loadImage image) :=
  ⟨rfl, fun c hc => Memory.read_writeList_of_not_mem s.mem 0x200 c hc⟩

/-- R192 counts bytes from `0x200` as numbers; the cell is `EA(k)` of a store at that address. -/
theorem Memory.read_loadImage {s : State} (hwf : Memory.wf s.mem = true) {image : List Byte}
    (hlen : image.length ≤ 4096) {k : Nat} (hk : k < image.length) :
    Memory.read (s.loadImage image).mem (BitVec.ofNat 12 (0x200 + k)) = image[k] := by
  have haddr : BitVec.ofNat 12 (0x200 + k) = effectiveAddress Config.progBase k := BitVec.ofNat_add 0x200 k
  rw [haddr]
  exact Memory.read_writeList_getElem hwf Config.progBase hlen hk

/-- Settles O15: an accepted image is one run of writes into the reset memory, which is canonical, and at 3584
bytes the run does not wrap around onto its own first bytes. -/
theorem bootLoadsTheImage : Obligations.BootLoadsTheImage := by
  intro image
  refine ⟨fun hfits => ?accepted, State.boot_of_lt_length⟩
  case accepted =>
    obtain ⟨hwf, -⟩ := invariantHoldsAtReset
    exact ⟨_, State.boot_of_length_le hfits, onlyBytesChange_loadImage State.reset image,
      fun _ hk => Memory.read_loadImage hwf (hfits.trans (by decide)) hk⟩

end Sys2Proof.Machine
